-- ==== Sys2Proof/Config.lean ====
section
/-! DEFINITION. The implementation parameters of 00_scope.md R5 that an instance of the block fixes.
They are plain data, so that every statement of the model can be made for every value of them. -/

namespace Sys2Proof

/-- The parameters of R5 that are constant for one machine. `none` in a size means unbounded, the value
the rules of the spec use; the three Booleans select the other reading of an ambiguous source text. -/
structure Config where
  /-- `OPC00_IS_NOP` (R54, D5): the Word 0x00 in opcode position is a second encoding of NOP. -/
  opc00IsNop : Bool
  /-- `STREAM_FIRST_BYTE_TERMINATES` (R90, D6): a first address Word 0x00 ends a stream address. -/
  streamFirstByteTerminates : Bool
  /-- `RESET_CLEARS_STATUS` (R104, D17): the `reset` command also sets `status` to `ok`. -/
  resetClearsStatus : Bool
  /-- `AW` (R5, D2, U3): bits of `ip` and of a call-level entry; OPEN. -/
  aw : Option Nat
  /-- `MEM_CAP` (D4, U7): the largest `N` accepted; OPEN. -/
  memCap : Option Nat
  /-- `DS_CAP` (D3, U7): capacity of the data stack; OPEN. -/
  dsCap : Option Nat
  /-- `CS_CAP` (D3, U7): capacity of the call stack; OPEN. -/
  csCap : Option Nat
  /-- `CL_CAP` (D3, U7): capacity of the call-level stack; OPEN. -/
  clCap : Option Nat
deriving DecidableEq, Repr

/-- The values the rules of the spec use (R5): the three Booleans false, every size unbounded. -/
def Config.standard : Config where
  opc00IsNop := false
  streamFirstByteTerminates := false
  resetClearsStatus := false
  aw := none
  memCap := none
  dsCap := none
  csCap := none
  clCap := none

end Sys2Proof
end

