-- ==== Sys2Proof/Word.lean ====
section
/-! DEFINITION. The Word of the machine: one unsigned 8-bit unit (10_state.md R11), the only data width. -/

namespace Sys2Proof

/-- A Word: opcode, operand byte, stack element and address byte alike (R11). -/
abbrev Word := BitVec 8

/-- ENDMARK, the sentinel Word that ends an address (R52, glossary). It is no instruction (R54). -/
abbrev endmark : Word := 0x00#8

end Sys2Proof
end

