-- ==== Sys2Proof/Machine/Bytes.lean ====
section
/-! DEFINITION. The bytes of an address: `nbytes` and `byte(a, i)` of 00_scope.md R6, the address bytes in
little-endian order, and the two domains of addresses that the codec can carry (R92, R95). -/

namespace Sys2Proof.Machine

/-- `nbytes(a)` of R6: the least `k >= 1` with `a < 2^(8k)`. -/
def nbytes (a : Nat) : Nat := a.log2 / 8 + 1

/-- `byte(a, i) = a[8i+7:8i]` of R6. -/
def byteAt (a i : Nat) : Word := BitVec.ofNat 8 (a >>> (8 * i))

/-- The minimal little-endian bytes of `a`, least significant first: `byte(a, 0)` to
`byte(a, nbytes(a) - 1)` (R91). Address 0 has the one byte 0. -/
def leBytes (a : Nat) : List Word := (List.range (nbytes a)).map (byteAt a)

/-- R92: no byte of `a` above byte 0 is zero. Under `STREAM_FIRST_BYTE_TERMINATES` (D6) a first
address Word 0x00 ends the field with target 0, so byte 0 may be zero in address 0 only. -/
def streamEncodable (cfg : Config) (a : Nat) : Bool :=
  (leBytes a).tail.all (fun w => w != endmark) &&
    (!cfg.streamFirstByteTerminates || a == 0 || byteAt a 0 != endmark)

/-- R95's domain: `a = 0`, or no byte of `a` is zero. -/
def roundTrips (a : Nat) : Bool := a == 0 || (leBytes a).all (fun w => w != endmark)

end Sys2Proof.Machine
end

