-- ==== Sys2Proof/Syntax.lean ====
section
/-! DEFINITION. The abstract syntax: one constructor for each row of spec/opcode_table.json (R52). -/

namespace Sys2Proof

/-- The 13 instructions of 30_encoding.md R52. A value operand is one Word (R56); a target is a natural
number, an absolute index into instruction memory (R57). An unknown opcode is no instruction (R53). -/
inductive Instr where
  /-- NOP, opcode 0x0C, format N (R66). -/
  | nop
  /-- DROP, opcode 0x01, format N (R67). -/
  | drop
  /-- POP, opcode 0x02, format N (R68). -/
  | pop
  /-- PUSH, opcode 0x03, format N (R69). -/
  | push
  /-- PUSHVAL v, opcode 0x04, format V (R70). -/
  | pushval (v : Word)
  /-- DUP, opcode 0x05, format N (R71). -/
  | dup
  /-- SWAP, opcode 0x06, format N (R72). -/
  | swap
  /-- INC, opcode 0x07, format N (R75). -/
  | inc
  /-- DEC, opcode 0x08, format N (R76). -/
  | dec
  /-- JMPIF v, target, opcode 0x09, format VT (R81). -/
  | jmpif (v : Word) (target : Nat)
  /-- RET, opcode 0x0A, format N (R84). -/
  | ret
  /-- CALL target, opcode 0x0B, format T (R82). -/
  | call (target : Nat)
  /-- GOTO target, opcode 0x10, format T (R83). -/
  | goto (target : Nat)
deriving DecidableEq, Repr

end Sys2Proof
end

