-- ==== Sys2Proof/WellFormed.lean ====
section
/-! DEFINITION. Which instructions the encoding can carry: those whose target, if they have one, is
stream-encodable (R92, R140). A value operand may be any Word (R47, R49). -/

namespace Sys2Proof

/-- An instruction that has an encoding under the parameters `cfg` (R92). -/
def Instr.wf (cfg : Config) : Instr → Bool
  | .nop => true
  | .drop => true
  | .pop => true
  | .push => true
  | .pushval _ => true
  | .dup => true
  | .swap => true
  | .inc => true
  | .dec => true
  | .jmpif _ target => Machine.streamEncodable cfg target
  | .ret => true
  | .call target => Machine.streamEncodable cfg target
  | .goto target => Machine.streamEncodable cfg target

end Sys2Proof
end

