-- ==== Sys2Proof/Decode.lean ====
section
/-! DEFINITION. The fetch/decode procedure of 30_encoding.md R51 as a total function of the Words from `ip`
on, the stream decoder of 43_address_codec.md R90, and the encoder for program writers (R91, R52). -/

namespace Sys2Proof

/-- What fetch makes of the Words from `ip` to the end of instruction memory. -/
inductive Decoded where
  /-- An instruction, and how many Words it took (R51). -/
  | instr (i : Instr) (consumed : Nat)
  /-- An unknown opcode Word; only that Word is consumed (R53, D7). -/
  | unknown (op : Word)
  /-- The memory ended before the instruction did; this many Words were read before the read that
  failed (R58, R121, D8). -/
  | cut (consumed : Nat)
deriving DecidableEq, Repr

namespace Machine

/-- The loop of `StreamDecode` (R90): `target` so far, the byte position `pos` of the next Word, the Words
left. Answers the target and the Words consumed by the whole field, or `none` where the Words run out.
The terminator is consumed and not added. -/
def streamTail (target pos : Nat) : List Word → Option (Nat × Nat)
  | [] => none
  | w :: rest =>
    if w = endmark then some (target, pos + 1)
    else streamTail (target + (w.toNat <<< (8 * pos))) (pos + 1) rest

/-- `StreamDecode` (R90): the first Word is byte 0 whatever its value (D6); only the later Words are
compared with ENDMARK. With `STREAM_FIRST_BYTE_TERMINATES` a first Word 0x00 ends the field. -/
def streamDecode (cfg : Config) : List Word → Option (Nat × Nat)
  | [] => none
  | w :: rest =>
    if cfg.streamFirstByteTerminates && w == endmark then some (0, 1)
    else streamTail w.toNat 1 rest

/-- The operand part of a format T instruction (R48): an address field after the opcode Word. -/
def decodeTarget (cfg : Config) (mk : Nat → Instr) (ops : List Word) : Decoded :=
  match streamDecode cfg ops with
  | some (target, k) => .instr (mk target) (1 + k)
  | none => .cut (1 + ops.length)

/-- The operand part of a format V instruction (R47): one Word, used as it stands (R56). -/
def decodeValue (mk : Word → Instr) : List Word → Decoded
  | [] => .cut 1
  | v :: _ => .instr (mk v) 2

/-- The operand part of a format VT instruction (R49): the value Word, then the address field. -/
def decodeValueTarget (cfg : Config) (mk : Word → Nat → Instr) : List Word → Decoded
  | [] => .cut 1
  | v :: ops =>
    match streamDecode cfg ops with
    | some (target, k) => .instr (mk v target) (2 + k)
    | none => .cut (2 + ops.length)

/-- Fetch/decode (R51) over the Words from `ip` on. The opcode Word is compared whole (R45) with the
13 values of R52; every other value is unknown (R53), 0x00 among them unless `OPC00_IS_NOP` (R54). -/
def decode (cfg : Config) : List Word → Decoded
  | [] => .cut 0
  | op :: ops =>
    if op = 0x0C#8 then .instr .nop 1
    else if op = 0x01#8 then .instr .drop 1
    else if op = 0x02#8 then .instr .pop 1
    else if op = 0x03#8 then .instr .push 1
    else if op = 0x04#8 then decodeValue .pushval ops
    else if op = 0x05#8 then .instr .dup 1
    else if op = 0x06#8 then .instr .swap 1
    else if op = 0x07#8 then .instr .inc 1
    else if op = 0x08#8 then .instr .dec 1
    else if op = 0x09#8 then decodeValueTarget cfg .jmpif ops
    else if op = 0x0A#8 then .instr .ret 1
    else if op = 0x0B#8 then decodeTarget cfg .call ops
    else if op = 0x10#8 then decodeTarget cfg .goto ops
    else if cfg.opc00IsNop && op == 0x00#8 then .instr .nop 1
    else .unknown op

/-- The stream encoding of an address (R91): its minimal little-endian bytes, then ENDMARK. Under
`STREAM_FIRST_BYTE_TERMINATES` address 0 is the one Word 0x00 (D6). -/
def addressField (cfg : Config) (a : Nat) : List Word :=
  if cfg.streamFirstByteTerminates && a == 0 then [endmark] else leBytes a ++ [endmark]

/-- The encoding of an instruction (R45 to R52, R91): opcode Word, then value, then address field. -/
def encode (cfg : Config) : Instr → List Word
  | .nop => [0x0C#8]
  | .drop => [0x01#8]
  | .pop => [0x02#8]
  | .push => [0x03#8]
  | .pushval v => [0x04#8, v]
  | .dup => [0x05#8]
  | .swap => [0x06#8]
  | .inc => [0x07#8]
  | .dec => [0x08#8]
  | .jmpif v target => 0x09#8 :: v :: addressField cfg target
  | .ret => [0x0A#8]
  | .call target => 0x0B#8 :: addressField cfg target
  | .goto target => 0x10#8 :: addressField cfg target

/-- The Words of an instruction whose bits are `w`, bit 0 the least significant bit of the first Word:
the `nbits / 8` Words of `w`, then three Words of zeros, which complete the operands of any format
(the longest needs three more, JMPIF after its opcode Word). -/
def tableWords (nbits w : Nat) : List Word :=
  (List.range (nbits / 8)).map (byteAt w) ++ List.replicate 3 endmark

end Machine

/-- The instruction the decoder reads from an opcode-table word (the host's numbering of bits), under
the parameters the rules use; `none` where the decoder refuses. -/
def decodeTableWord (nbits w : Nat) : Option Instr :=
  match Machine.decode Config.standard (Machine.tableWords nbits w) with
  | .instr i _ => some i
  | .unknown _ => none
  | .cut _ => none

end Sys2Proof
end

