-- ==== Sys2Proof/Machine/State.lean ====
section
/-! DEFINITION. The state of the block (10_state.md R10 to R27), the host's pending inputs as data, the
closed types of results, faults and refusals, and the hardware reset (R135). -/

namespace Sys2Proof.Machine

/-- The exit status (R17). -/
inductive Status where
  | ok
  | error
  | maxsteps
  | user
deriving DecidableEq, Repr

/-- The four instruction-level failures, with the spec's cause codes (R115, D30). -/
inductive FailKind where
  /-- F1 (R116). -/
  | stackUnderflow
  /-- F2 (R117). -/
  | frameViolation
  /-- F3 (R118). -/
  | invalidOpcode
  /-- F4 (R119). -/
  | malformedAddress
deriving DecidableEq, Repr

/-- What a machine cycle yields to whoever started it (R100). `terminated` is the termination signal
`term` (R21). The failure kind is kept beside `failed` (D30: a model may keep the code). -/
inductive CycleResult where
  | continued
  | terminated
  | failed (kind : FailKind)
  | faulted
deriving DecidableEq, Repr

/-- The run in progress: its step budget, `none` for `unbounded` (R105, D15), and `steps`, the cycles
it has performed (R20). -/
structure RunCtl where
  maxsteps : Option Nat
  steps : Nat
deriving DecidableEq, Repr

/-- The host operations (R102 to R108). `STRICT`, an input held constant from one `run` or `step` to its
end (R18, D20), is an argument of those two. `maxsteps = none` is `unbounded` (D15). -/
inductive Command where
  | loadprogram (bytes : List Word)
  | setdata (words : List Word)
  | reset
  | run (strict : Bool) (maxsteps : Option Nat)
  | step (strict : Bool)
  | halt
deriving DecidableEq, Repr

/-- The whole state (R24: rules R10 to R21 are the whole state), the parameters of the instance, and the
host's inputs. Stacks are written bottom first, top last (R7). -/
structure State where
  /-- Instruction memory (R10, R38): the Words at indices 0 to N-1, one cell for each index. -/
  mem : List Host.Cell
  /-- The program counter (R12). -/
  ip : Nat
  /-- The data stack (R13). -/
  ds : List Word
  /-- The call stack (R14). -/
  cs : List Word
  /-- The call-level stack (R15). -/
  cl : List Nat
  /-- The exit status (R17). -/
  status : Status
  /-- The strict flag (R18), as the `run` or `step` last begun was given it. -/
  strict : Bool
  /-- The parameters of the instance (R5); no transition writes them. -/
  cfg : Config
  /-- The run in progress, `none` when there is none (R20, R43, R105). -/
  run : Option RunCtl
  /-- The result of the last cycle (R100), as `step` returns it to the host (R107); `none` before the
  first one. The model's own record: nothing but the run loop reads it, in the same cycle. -/
  result : Option CycleResult
  /-- The model's own: the host operations not yet accepted, in order (R101, R43). -/
  commands : List Command
  /-- The model's own: for each coming step boundary of a run, whether the host has issued `halt` since
  the last one (U13); past the end of the list, it has not. -/
  halts : List Bool
deriving DecidableEq, Repr

/-- `N`, the length of the loaded instruction memory (R10). -/
def State.N (s : State) : Nat := s.mem.length

/-- Reasons to stop with a fault: none. Every event of 60_exceptions.md, the fetch fault among them
(R121), has an effect the spec gives in full, so it is a next state. -/
inductive Fault where
deriving DecidableEq, Repr

/-- Reasons to refuse. Apart from `notModelled`, each is raised only where an OPEN size parameter of R5
has been given a finite value and the execution exceeds it: U3 and U7 say that a model must refuse such
an execution and not wrap, truncate, drop Words or add a failure category. All are safe: a hardware of
that size has no behaviour the spec gives. With `Config.standard` none is ever raised. -/
inductive Refusal where
  /-- Raised by an arm of `exec` whose instruction has no meaning yet; no arm does. Safe. -/
  | notModelled (mnemonic : String)
  /-- Raised by fetch when `ip` would reach `2^AW` by an increment (U3). Safe. -/
  | addressWidth
  /-- Raised by `loadprogram` when the program is longer than `MEM_CAP` (U7). Safe. -/
  | memoryCapacity
  /-- Raised by a push on a full data stack, or by `setdata` with more Words than `DS_CAP` (U7). Safe. -/
  | dataStackCapacity
  /-- Raised by POP and CALL when the call stack would exceed `CS_CAP` (U7). Safe. -/
  | callStackCapacity
  /-- Raised by CALL and by `run` when the call-level stack would exceed `CL_CAP` (U7). Safe. -/
  | callLevelCapacity
  /-- Raised by CALL when the new boundary, the length of the call stack, has more than `AW` bits, the width of
  a call-level entry (R5, D2). Safe. -/
  | callLevelWidth
deriving DecidableEq, Repr

/-- What a meaning, a cycle and a step answer. -/
abbrev Result := Host.Outcome State Fault Refusal

/-- The state after the hardware reset (R25, R135): stacks and memory empty, `ip = 0`, `status = ok`, no run
in progress. `strict` has no reset value in the spec (R18): `true` is a DESIGN CHOICE (log 1). The inputs
of the host are empty. -/
def State.reset : State where
  mem := []
  ip := 0
  ds := []
  cs := []
  cl := []
  status := .ok
  strict := true
  cfg := Config.standard
  run := none
  result := none
  commands := []
  halts := []

end Sys2Proof.Machine
end

