-- ==== Sys2Proof/Machine/Ops.lean ====
section
/-! DEFINITION. The named operations over the state: instruction memory (R8, R38, R39), the stacks (R7), the
sizes of an instance (U3, U7), and what ends an instruction or a cycle: completing, terminating,
failing under the strict policy (R120) and the fetch fault (R121). -/

namespace Sys2Proof.Machine

/-! ### Instruction memory -/

/-- The canonical form of instruction memory: the cells' addresses are 0, 1, ..., N-1 in this order
(R38), so they rise strictly; an unlisted address has no value, so no cell is redundant. -/
def Memory.wf (m : List Host.Cell) : Bool := m.map Prod.fst == List.range m.length

/-- `MemRead(a, 1)` (R8): the Word at index `a`, or no value where `a >= N` (R39). This is the one
definition of what an unlisted address reads as: nothing. -/
def Memory.read (m : List Host.Cell) (a : Nat) : Option Word := m.lookup a

/-- Memory holding `bytes`, byte `k` at index `k` (R38). -/
def Memory.ofWords (bytes : List Word) : List Host.Cell :=
  (List.range bytes.length).zip bytes

/-- The loaded Words in index order. -/
def Memory.words (m : List Host.Cell) : List Word := m.map Prod.snd

/-- The Words that one-Word reads at `a`, `a+1`, ... give, at most `fuel` of them, up to the first
read that fails (R31, R37, R39). -/
def Memory.readFrom (m : List Host.Cell) : (fuel a : Nat) → List Word
  | 0, _ => []
  | fuel + 1, a =>
    match Memory.read m a with
    | none => []
    | some w => w :: Memory.readFrom m fuel (a + 1)

/-- All that fetch can read from index `a` on: `N` reads are enough, since only `N` indices exist. -/
def Memory.wordsFrom (m : List Host.Cell) (a : Nat) : List Word := Memory.readFrom m m.length a

/-- `ws` with `bytes` laid over it from index `a` on; a gap before `a` is filled with zeros. Used only to
place an instruction where the next fetch finds it (log 11). -/
def Memory.overlay (ws : List Word) (a : Nat) (bytes : List Word) : List Word :=
  ws.take a ++ List.replicate (a - ws.length) endmark ++ bytes ++ ws.drop (a + bytes.length)

/-! ### Stacks, bottom first and top last (R7) -/

/-- `top(s)`, where there is one (R7). -/
def Stack.top? {α : Type} (s : List α) : Option α := s.getLast?

/-- `s.push(v)` (R7). -/
def Stack.push {α : Type} (s : List α) (v : α) : List α := s ++ [v]

/-- `s.pop()` (R7): the top and what is left, where there is a top. -/
def Stack.pop? {α : Type} (s : List α) : Option (α × List α) :=
  match s.getLast? with
  | none => none
  | some v => some (v, s.dropLast)

/-! ### The OPEN sizes of an instance -/

/-- Whether `n` elements fit a capacity; `none` is unbounded (R5, D3, D4, U7). -/
def withinCap (cap : Option Nat) (n : Nat) : Bool :=
  match cap with
  | none => true
  | some c => decide (n ≤ c)

/-- Whether a number has at most `AW` bits, the width of `ip` and of a call-level entry (R5, D2); `none` is
unbounded. -/
def addressFits (cfg : Config) (a : Nat) : Bool :=
  match cfg.aw with
  | none => true
  | some aw => decide (a < 2 ^ aw)

/-- Whether `ip` may be incremented `k` times without reaching `2^AW` (U3); with no increment there is
nothing to check, so a jump beyond `2^AW` is not refused here: the next fetch faults. -/
def ipFits (cfg : Config) (ip k : Nat) : Bool := k == 0 || addressFits cfg (ip + k)

/-! ### How an instruction or a cycle ends -/

/-- Success without `term`: the cycle yields `continue` (R65, R100). -/
def State.complete (s : State) : State := { s with result := some .continued }

/-- `signal term` (R21, R84): the cycle yields `terminated`; `status` is not written (R124). -/
def State.terminate (s : State) : State := { s with result := some .terminated }

/-- TAKING A FAILURE, the one operation for F1 to F4 under the strict policy (R120): `status <- error` if
`STRICT`, else `status` is not written; the cycle yields `failed` (R100). The state it is given is the
one the instruction's rule leaves (D24). There is no handler and no return (R128, R129). -/
def State.fail (kind : FailKind) (s : State) : State :=
  { s with
    status := if s.strict then .error else s.status
    result := some (.failed kind) }

/-- TAKING A FETCH FAULT (R121): `status <- error` whatever `STRICT` is, `ip` stays at the index whose
read failed (D8), the cycle yields `faulted`. -/
def State.fetchFault (a : Nat) (s : State) : State :=
  { s with ip := a, status := .error, result := some .faulted }

/-- Ends an instruction with a push of `v` on the data stack (R7, R70); a push on a full stack of finite
capacity is refused (U7). -/
def pushData (v : Word) (s : State) : Result :=
  if withinCap s.cfg.dsCap (s.ds.length + 1) then
    .next { s with ds := Stack.push s.ds v }.complete
  else .refused .dataStackCapacity

end Sys2Proof.Machine
end

