-- ==== Sys2Proof/Machine/Flags.lean ====
section
/-! DEFINITION. The machine has no flags, condition codes or predicates (R23). What stands where another
machine computes flags: the wrapping arithmetic that records no carry (R77) and the one comparison, whose
outcome is used and forgotten (R78). -/

namespace Sys2Proof.Machine

/-- `wrap8(v) = v mod 256` of R6, with the mathematical modulus, as a Word. -/
def wrap8 (v : Int) : Word := BitVec.ofInt 8 v

/-- `wrap8(v + 1)` (R75, R77). -/
def incWord (v : Word) : Word := wrap8 (v.toNat + 1)

/-- `wrap8(v - 1)` (R76, R77). -/
def decWord (v : Word) : Word := wrap8 ((v.toNat : Int) - 1)

/-- The equality test of JMPIF (R78, R81): the same number 0..255. -/
def sameWord (x v : Word) : Bool := x.toNat == v.toNat

end Sys2Proof.Machine
end

