-- ==== Sys2Proof/Machine/Operands.lean ====
section
/-! DEFINITION. The implicit operands of the instructions: the top one or two Words of the data stack, and the
top of the call stack within the current frame, each with the failure the spec gives where it is missing
(R116, R117). The explicit operands, value and target, are read by fetch (Decode.lean, R56, R57). -/

namespace Sys2Proof.Machine

/-- `if |ds| = 0 then fail StackUnderflow; v <- ds.pop()` (R67, R68, R75, R76, R81): goes on with the
popped Word and the state without it; a failure changes no stack. -/
def withTop (s : State) (k : Word → State → Result) : Result :=
  match Stack.pop? s.ds with
  | none => .next (s.fail .stackUnderflow)
  | some (v, ds) => k v { s with ds := ds }

/-- `if |ds| < 2 then fail StackUnderflow; b <- ds.pop(); a <- ds.pop()` (R72): goes on with `b`, `a` and the
state without them. With exactly one Word the stack is left as it was. -/
def withTopTwo (s : State) (k : Word → Word → State → Result) : Result :=
  match Stack.pop? s.ds with
  | none => .next (s.fail .stackUnderflow)
  | some (b, ds) =>
    match Stack.pop? ds with
    | none => .next (s.fail .stackUnderflow)
    | some (a, ds') => k b a { s with ds := ds' }

/-- `if |cl| = 0 then fail FrameViolation; if |cs| <= top(cl) then fail FrameViolation; v <- cs.pop()`
(R69, D11): goes on with the popped Word and the state without it. -/
def withFrameTop (s : State) (k : Word → State → Result) : Result :=
  match Stack.top? s.cl with
  | none => .next (s.fail .frameViolation)
  | some boundary =>
    if s.cs.length ≤ boundary then .next (s.fail .frameViolation)
    else
      match Stack.pop? s.cs with
      | none => .next (s.fail .frameViolation)
      | some (v, cs) => k v { s with cs := cs }

end Sys2Proof.Machine
end

