-- ==== Sys2Proof/Machine/Arith.lean ====
section
/-! DEFINITION. The meanings of INC and DEC (41_arith.md). -/

namespace Sys2Proof.Machine

/-- INC (R75): the top of the data stack becomes `wrap8(v + 1)`. -/
def execInc (s : State) : Result :=
  withTop s fun v s' => .next { s' with ds := Stack.push s'.ds (incWord v) }.complete

/-- DEC (R76): the top of the data stack becomes `wrap8(v - 1)`. -/
def execDec (s : State) : Result :=
  withTop s fun v s' => .next { s' with ds := Stack.push s'.ds (decWord v) }.complete

end Sys2Proof.Machine
end

