-- ==== Sys2Proof/Machine/Codec.lean ====
section
/-! DEFINITION. The call-stack side of the address codec: `CallPush` (R93) and `CallPop` (R94). The stream
side, `StreamDecode` (R90), is in Decode.lean; the two decoders differ and are kept apart (R98, C5). -/

namespace Sys2Proof.Machine

/-- The Words `CallPush(addr)` pushes, in the order it pushes them (R93): ENDMARK deepest, then the bytes
most significant first; the double-zero form for address 0. -/
def callBytes (addr : Nat) : List Word :=
  if addr = 0 then [endmark, 0x00#8] else endmark :: (leBytes addr).reverse

/-- `CallPush(addr)` (R93): always succeeds and writes `cs` only. -/
def callPush (addr : Nat) (cs : List Word) : List Word := cs ++ callBytes addr

/-- The loop of `CallPop` (R94) over `cs` read from the top down: the target so far, the byte position and the
Words left. `none` is the malformed-address failure: the Words ran out before an ENDMARK, or at the extra
pop of the double-zero form (D13). -/
def callPopLoop (target pos : Nat) : List Word → Option (Nat × List Word)
  | [] => none
  | w :: rest =>
    if w = endmark then
      if pos = 0 ∧ target = 0 then
        match rest with
        | [] => none
        | _ :: rest' => some (target, rest')
      else some (target, rest)
    else callPopLoop (target + (w.toNat <<< (8 * pos))) (pos + 1) rest

/-- `CallPop()` (R94): the address and what is left of `cs`. Where it answers `none` every Word has been
popped (D12). -/
def callPop (cs : List Word) : Option (Nat × List Word) :=
  match callPopLoop 0 0 cs.reverse with
  | none => none
  | some (target, left) => some (target, left.reverse)

end Sys2Proof.Machine
end

