-- ==== Sys2Proof/Machine/Control.lean ====
section
/-! DEFINITION. The meanings of JMPIF, CALL, GOTO and RET, and the failure of an invalid opcode
(42_control.md). On entry `ip` is `ip_seq`, just past the instruction (R80). -/

namespace Sys2Proof.Machine

/-- JMPIF v, target (R81): pop the top of the data stack; jump if it equals `v`; always pop. -/
def execJmpif (v : Word) (target : Nat) (s : State) : Result :=
  withTop s fun x s' =>
    .next { s' with ip := if sameWord x v then target else s'.ip }.complete

/-- CALL target (R82): `CallPush(ip); cl.push(|cs|); ip <- target`, `|cs|` taken after the return address is
on `cs`. Refused where a stack of finite capacity would overflow (U7), or where the new boundary has more than `AW`
bits (R5, D2; log 3). -/
def execCall (target : Nat) (s : State) : Result :=
  let cs' := callPush s.ip s.cs
  if !withinCap s.cfg.csCap cs'.length then .refused .callStackCapacity
  else if !withinCap s.cfg.clCap (s.cl.length + 1) then .refused .callLevelCapacity
  else if !addressFits s.cfg cs'.length then .refused .callLevelWidth
  else .next { s with cs := cs', cl := Stack.push s.cl cs'.length, ip := target }.complete

/-- GOTO target (R83). -/
def execGoto (target : Nat) (s : State) : Result := .next { s with ip := target }.complete

/-- RET (R84): the boundary must match `|cs|` exactly (an empty `cl` is a mismatch, D11); it is popped; with
an empty `cs` the program terminates (D10); else the return address is popped and jumped to. Where it
cannot be decoded the boundary stays popped and `cs` is empty (D12). -/
def execRet (s : State) : Result :=
  match Stack.pop? s.cl with
  | none => .next (s.fail .frameViolation)
  | some (boundary, cl) =>
    if s.cs.length ≠ boundary then .next (s.fail .frameViolation)
    else if s.cs.length = 0 then .next { s with cl := cl }.terminate
    else
      match callPop s.cs with
      | none => .next ({ s with cl := cl, cs := [] }.fail .malformedAddress)
      | some (t, cs) => .next { s with cl := cl, cs := cs, ip := t }.complete

/-- The invalid opcode (R85): always the failure F3, and nothing else. -/
def execInvalid (s : State) : Result := .next (s.fail .invalidOpcode)

end Sys2Proof.Machine
end

