-- ==== Sys2Proof/Machine/StackOps.lean ====
section
/-! DEFINITION. The meanings of NOP, DROP, POP, PUSH, PUSHVAL, DUP and SWAP (40_stack_ops.md). A meaning is given
the state after a successful fetch, with `ip` past the instruction (R65). -/

namespace Sys2Proof.Machine

/-- NOP (R66): no effect. -/
def execNop (s : State) : Result := .next s.complete

/-- DROP (R67): discard the top of the data stack. -/
def execDrop (s : State) : Result :=
  withTop s fun _ s' => .next s'.complete

/-- POP (R68): move the top of the data stack to the top of the call stack. -/
def execPop (s : State) : Result :=
  withTop s fun v s' =>
    if withinCap s.cfg.csCap (s.cs.length + 1) then
      .next { s' with cs := Stack.push s'.cs v }.complete
    else .refused .callStackCapacity

/-- PUSH (R69): move the top of the call stack to the data stack, within the current frame. -/
def execPush (s : State) : Result :=
  withFrameTop s fun v s' => pushData v s'

/-- PUSHVAL v (R70): push the literal. -/
def execPushval (v : Word) (s : State) : Result := pushData v s

/-- DUP (R71): push the top of the data stack again. -/
def execDup (s : State) : Result :=
  match Stack.top? s.ds with
  | none => .next (s.fail .stackUnderflow)
  | some v => pushData v s

/-- SWAP (R72): exchange the top two Words of the data stack. -/
def execSwap (s : State) : Result :=
  withTopTwo s fun b a s' =>
    .next { s' with ds := Stack.push (Stack.push s'.ds b) a }.complete

end Sys2Proof.Machine
end

