-- ==== Sys2Proof/Machine/Dispatch.lean ====
section
/-! DEFINITION. Execute: the dispatch on the decoded instruction (R65, R100), one arm per constructor. -/

namespace Sys2Proof.Machine

def exec (i : Instr) (s : State) : Host.Outcome State Fault Refusal :=
  match i with
  | .nop => Sys2Proof.Machine.execNop s
  | .drop => Sys2Proof.Machine.execDrop s
  | .pop => Sys2Proof.Machine.execPop s
  | .push => Sys2Proof.Machine.execPush s
  | .pushval v => Sys2Proof.Machine.execPushval v s
  | .dup => Sys2Proof.Machine.execDup s
  | .swap => Sys2Proof.Machine.execSwap s
  | .inc => Sys2Proof.Machine.execInc s
  | .dec => Sys2Proof.Machine.execDec s
  | .jmpif v target => Sys2Proof.Machine.execJmpif v target s
  | .ret => Sys2Proof.Machine.execRet s
  | .call target => Sys2Proof.Machine.execCall target s
  | .goto target => Sys2Proof.Machine.execGoto target s

end Sys2Proof.Machine
end

