-- ==== Sys2Proof/Machine/Cycle.lean ====
section
/-! DEFINITION. The machine cycle (R100): one fetch (R51), then one execute. -/

namespace Sys2Proof.Machine

/-- Fetch (R51): decode the Words from `ip` on. It depends on `mem`, `ip` and the parameters alone (R59). -/
def fetch (s : State) : Decoded := decode s.cfg (Memory.wordsFrom s.mem s.ip)

/-- One machine cycle (R100). A fetch fault ends it with `ip` at the index whose read failed (R121); an unknown
opcode has taken one Word and fails at execute (R53, R85); otherwise execute runs with `ip` just past the
instruction (R12, R80). An increment of `ip` to `2^AW` is refused where `AW` is finite (U3). -/
def cycle (s : State) : Result :=
  match fetch s with
  | .cut k =>
    if ipFits s.cfg s.ip k then .next (s.fetchFault (s.ip + k)) else .refused .addressWidth
  | .unknown _ =>
    if ipFits s.cfg s.ip 1 then execInvalid { s with ip := s.ip + 1 } else .refused .addressWidth
  | .instr i k =>
    if ipFits s.cfg s.ip k then exec i { s with ip := s.ip + k } else .refused .addressWidth

end Sys2Proof.Machine
end

