-- ==== Sys2Proof/Machine/HostOps.lean ====
section
/-! DEFINITION. The host operations (44_host_commands.md R102 to R109), each one atomic transition of an idle
machine (R43, R101, D23). -/

namespace Sys2Proof.Machine

/-- `loadprogram(bytes)` (R102): `mem <- bytes`, nothing else; refused beyond `MEM_CAP` (U7). -/
def loadprogram (bytes : List Word) (s : State) : Result :=
  if withinCap s.cfg.memCap bytes.length then .next { s with mem := Memory.ofWords bytes }
  else .refused .memoryCapacity

/-- `setdata(words)` (R103): the whole data stack replaced, first Word at the bottom (D22); refused beyond
`DS_CAP` (U7). -/
def setdata (words : List Word) (s : State) : Result :=
  if withinCap s.cfg.dsCap words.length then .next { s with ds := words }
  else .refused .dataStackCapacity

/-- The `reset` command (R104, R136): stacks empty, `ip = 0`, memory kept; `status` kept unless
`RESET_CLEARS_STATUS` (D17). -/
def resetCommand (s : State) : Result :=
  .next { s with
    ds := []
    cs := []
    cl := []
    ip := 0
    status := if s.cfg.resetClearsStatus then .ok else s.status }

/-- The entry actions of `run(maxsteps)` (R105): push the sentinel boundary 0, `steps <- 0`, whatever
`status` is; `status` is not written (D16). Refused beyond `CL_CAP` (U7). -/
def runEntry (strict : Bool) (maxsteps : Option Nat) (s : State) : Result :=
  if withinCap s.cfg.clCap (s.cl.length + 1) then
    .next { s with
      cl := Stack.push s.cl 0
      strict := strict
      run := some { maxsteps := maxsteps, steps := 0 } }
  else .refused .callLevelCapacity

/-- `step()` (R107): exactly one cycle on the state as it stands; no sentinel, no test of `status`. -/
def stepCommand (strict : Bool) (s : State) : Result := cycle { s with strict := strict }

/-- `halt()` (R108): `status <- user`, whatever it was (D18). -/
def State.halt (s : State) : State := { s with status := .user }

/-- One host operation on an idle machine. -/
def issue (c : Command) (s : State) : Result :=
  match c with
  | .loadprogram bytes => loadprogram bytes s
  | .setdata words => setdata words s
  | .reset => resetCommand s
  | .run strict maxsteps => runEntry strict maxsteps s
  | .step strict => stepCommand strict s
  | .halt => .next s.halt

/-- The result surface (R109, R26): the data stack, bottom first, and the exit status, readable when no run is
in progress. Reading changes nothing. -/
def State.results (s : State) : Option (List Word × Status) :=
  match s.run with
  | none => some (s.ds, s.status)
  | some _ => none

/-- The numbers the spec suggests for the exit status (R17, D21); nothing depends on them. -/
def Status.code : Status → Nat
  | .ok => 0
  | .error => 1
  | .maxsteps => 2
  | .user => 3

end Sys2Proof.Machine
end

