-- ==== Sys2Proof/Machine/RunLoop.lean ====
section
/-! DEFINITION. The run loop (R105, R106) as one transition per step boundary, and the transition of the whole
machine. -/

namespace Sys2Proof.Machine

/-- Whether a finite budget is spent: `steps >= maxsteps` (R106, R122). -/
def RunCtl.spent (r : RunCtl) : Bool :=
  match r.maxsteps with
  | none => false
  | some m => decide (r.steps ≥ m)

/-- A `halt` that the host has issued since the last boundary takes effect at this one (R108, U13). -/
def takeHalt (s : State) : State :=
  let s' := { s with halts := s.halts.tail }
  if s.halts.head? = some true then s'.halt else s'

/-- After a cycle of a run (R106): `steps` is counted; a cycle that yields `terminated` ends the run at once
(R126). DESIGN CHOICE: a `halt` issued during that cycle meets no boundary of this run; it is a `halt` of the idle machine,
the next of `commands`, and `halts` has no entry for it (log 33). -/
def afterCycle (r : RunCtl) (s : State) : State :=
  { s with
    run :=
      if s.result = some .terminated then none
      else some { r with steps := r.steps + 1 } }

/-- The cycle of a run with control `r`, and what the loop does after it. -/
def runCycle (r : RunCtl) (s : State) : Result :=
  match cycle s with
  | .next s' => .next (afterCycle r s')
  | .fault f => .fault f
  | .refused x => .refused x

/-- One step boundary of a run and the cycle after it (R106): a halt takes effect; a terminal `status` ends the
run; then a spent budget sets `status <- maxsteps` and ends it (D14); otherwise one cycle. -/
def boundary (r : RunCtl) (s : State) : Result :=
  let s' := takeHalt s
  if s'.status ≠ .ok then .next { s' with run := none }
  else if r.spent then .next { s' with status := .maxsteps, run := none }
  else runCycle r s'

/-- One transition of the machine: the next boundary of the run in progress; or, when idle, the next operation
of the host (R43, R101); or, with none, nothing. -/
def transition (s : State) : Result :=
  match s.run with
  | some r => boundary r s
  | none =>
    match s.commands with
    | [] => .next s
    | c :: rest => issue c { s with commands := rest }

/-- `s` with an instruction's Words where the next fetch reads and a `step` of the host pending (log 10, log 11). -/
def placeInstruction (words : List Word) (s : State) : State :=
  { s with
    mem := Memory.ofWords (Memory.overlay (Memory.words s.mem) s.ip words)
    run := none
    commands := .step s.strict :: s.commands }

end Sys2Proof.Machine
end

