-- ==== Sys2Proof/Machine/Step.lean ====
section
/-! DEFINITION. One step of the machine, and the placing of an instruction where the next step fetches it. -/

namespace Sys2Proof.Machine

/-- One step: a step boundary of a run with its cycle, or one host operation (log 9). -/
def step (s : State) : Host.Outcome State Fault Refusal := transition s

/-- `s` with the instruction of the opcode-table word `w` stored at `ip` and the host's `step` pending, so that
the next step fetches and runs exactly it (log 10, log 11). -/
def State.withFetchWord (s : State) (nbits w : Nat) : State :=
  placeInstruction (tableWords nbits w) s

end Sys2Proof.Machine
end

