-- ==== Sys2Proof/Safety.lean ====
section
/-! DEFINITION. What a good state is: the canonical memory, the sizes of the instance, the frames of the run in
progress (R16), and the terms the statements about the machine use. -/

namespace Sys2Proof.Machine

/-- The sizes of the instance are kept: the capacities (U7's hypothesis), and the width of the call-level entries
(R5, D2). -/
def WithinCapacity (s : State) : Prop :=
  withinCap s.cfg.memCap s.mem.length = true ∧ withinCap s.cfg.dsCap s.ds.length = true ∧
    withinCap s.cfg.csCap s.cs.length = true ∧ withinCap s.cfg.clCap s.cl.length = true ∧
    ∀ b ∈ s.cl, addressFits s.cfg b = true

/-- Between the boundaries `lo` and `hi` of `cs` there is a zero Word with a Word above it: what is left of every
`CallPush` (R93), whose ENDMARK is deepest. -/
def hasMark (cs : List Word) (lo hi : Nat) : Bool :=
  (List.range hi).any fun k => decide (lo ≤ k) && decide (k + 1 < hi) && cs[k]? == some endmark

/-- The boundaries `bounds` above `base` frame `cs`: each is the top of a region of the call stack that holds an
ENDMARK with a byte above it, and the last is not above `|cs|` (R14, R15, R16). -/
def framesOk (cs : List Word) (base : Nat) : List Nat → Bool
  | [] => decide (base ≤ cs.length)
  | b :: bounds => hasMark cs base b && framesOk cs b bounds

/-- The frame invariant of a run (R16): above the sentinel 0 that `run` pushed, the boundaries frame the call
stack. -/
def FrameInv (s : State) : Prop :=
  s.run.isSome = true →
    ∃ below bounds, s.cl = below ++ 0 :: bounds ∧ framesOk s.cs 0 bounds = true

/-- The invariant of the machine. -/
def Inv (s : State) : Prop := Memory.wf s.mem = true ∧ WithinCapacity s ∧ FrameInv s

/-- Every OPEN size of the instance is unbounded, as the rules of the spec take them (R5, D2, D3, D4). -/
def Unbounded (cfg : Config) : Prop :=
  cfg.aw = none ∧ cfg.memCap = none ∧ cfg.dsCap = none ∧ cfg.csCap = none ∧ cfg.clCap = none

/-- No `halt` of the host is pending at the next step boundary (U13). -/
def NoHaltNow (s : State) : Prop := s.halts.head? ≠ some true

/-- The value of little-endian bytes: `a0 + a1 * 2^8 + ... + ak * 2^(8k)` (R57, R91). -/
def leValue : List Word → Nat
  | [] => 0
  | w :: ws => w.toNat + 256 * leValue ws

end Sys2Proof.Machine
end

