-- ==== Sys2Proof/Certificates/Slice0/Obligations.lean ====
section
/-! DEFINITION. The statements about the model, for the provers. A meaning is applied to the state after a successful
fetch, whose `ip` is `ip_seq`, just past the instruction (R65, R80). An equation `exec i s = .next {s with ...}` is
also the frame of the instruction: every field that is not written is as it was. Clauses that the spec itself marks
as its own decision or derivation are stated under basis `derived`. -/

open Sys2Proof Sys2Proof.Machine

/-! ### Encoding -/

/-- R52: the 13 opcode values, each with the operands its format gives it; ENDMARK is 0x00. -/
def Obligations.OpcodeMapAsTabled : Prop :=
  endmark = 0x00#8 ∧
  ∀ (cfg : Config) (ops : List Word),
    decode cfg (0x0C#8 :: ops) = .instr .nop 1 ∧
    decode cfg (0x01#8 :: ops) = .instr .drop 1 ∧
    decode cfg (0x02#8 :: ops) = .instr .pop 1 ∧
    decode cfg (0x03#8 :: ops) = .instr .push 1 ∧
    (∀ v, decode cfg (0x04#8 :: v :: ops) = .instr (.pushval v) 2) ∧
    decode cfg (0x05#8 :: ops) = .instr .dup 1 ∧
    decode cfg (0x06#8 :: ops) = .instr .swap 1 ∧
    decode cfg (0x07#8 :: ops) = .instr .inc 1 ∧
    decode cfg (0x08#8 :: ops) = .instr .dec 1 ∧
    (∀ v target len, streamDecode cfg ops = some (target, len) →
      decode cfg (0x09#8 :: v :: ops) = .instr (.jmpif v target) (2 + len)) ∧
    decode cfg (0x0A#8 :: ops) = .instr .ret 1 ∧
    (∀ target len, streamDecode cfg ops = some (target, len) →
      decode cfg (0x0B#8 :: ops) = .instr (.call target) (1 + len) ∧
      decode cfg (0x10#8 :: ops) = .instr (.goto target) (1 + len))

/-- A few words written out from R46 to R52 and the vectors of 95_test_vectors.md decode to what they stand for. -/
def Obligations.WrittenWordsDecode : Prop :=
  decode Config.standard [0x0C#8] = .instr .nop 1 ∧
  decode Config.standard [0x04#8, 0x00#8] = .instr (.pushval 0x00#8) 2 ∧
  decode Config.standard [0x07#8, 0x07#8] = .instr .inc 1 ∧
  decode Config.standard [0x09#8, 0x03#8, 0x34#8, 0x12#8, 0x00#8] = .instr (.jmpif 0x03#8 0x1234) 5 ∧
  decode Config.standard [0x0B#8, 0x06#8, 0x00#8, 0x0A#8] = .instr (.call 6) 3 ∧
  decode Config.standard [0x10#8, 0x00#8, 0x01#8, 0x00#8] = .instr (.goto 256) 4 ∧
  decode Config.standard [0x10#8, 0x05#8] = .cut 2 ∧
  decode Config.standard [0x11#8, 0x05#8, 0x00#8] = .unknown 0x11#8

/-- An opcode Word that is none of the 13 values is unknown, and only such a Word is; one Word is consumed, the spec's own
decision D7. The Word 0x00 is one of them unless `OPC00_IS_NOP`, the spec's own decision D5. -/
def Obligations.UnknownOpcodesAreTheRest : Prop :=
  ∀ (cfg : Config) (op : Word) (ops : List Word),
    decode cfg (op :: ops) = .unknown op ↔
      (¬ (1 ≤ op.toNat ∧ op.toNat ≤ 12) ∧ op.toNat ≠ 16 ∧ ¬ (op = 0x00#8 ∧ cfg.opc00IsNop = true))

/-- DECODE AND ENCODE AGREE: whatever Words follow, the encoding of a well-formed instruction decodes to it and to nothing
more than its own Words, under every choice of the parameters. -/
def Obligations.DecodeEncodeAgree : Prop :=
  ∀ (cfg : Config) (i : Instr) (rest : List Word), i.wf cfg = true →
    decode cfg (encode cfg i ++ rest) = .instr i (encode cfg i).length

/-- An instruction has one encoding: Words that decode to it begin with its encoding, and it is well-formed. (With
`OPC00_IS_NOP` the Word 0x00 is a second encoding of NOP, so that parameter is false here.) -/
def Obligations.EncodingIsUnique : Prop :=
  ∀ (cfg : Config) (words : List Word) (i : Instr) (len : Nat), cfg.opc00IsNop = false →
    decode cfg words = .instr i len → i.wf cfg = true ∧ words.take len = encode cfg i

/-- The value of an address field, its first Word being any Word that does not end the field, and the instructions
that use it as it stands: the sum of R57, with no bound on the number of Words (the spec's own decision D2) and the first
Word taken as the parameter D6 says. -/
def Obligations.TargetIsLittleEndian : Prop :=
  ∀ (cfg : Config) (a0 : Word) (as rest : List Word), (∀ w ∈ as, w ≠ endmark) →
    (cfg.streamFirstByteTerminates = true → a0 ≠ endmark) →
    streamDecode cfg (a0 :: as ++ endmark :: rest) = some (leValue (a0 :: as), as.length + 2) ∧
    decode cfg (0x10#8 :: a0 :: as ++ endmark :: rest) =
      .instr (.goto (leValue (a0 :: as))) (as.length + 3) ∧
    decode cfg (0x0B#8 :: a0 :: as ++ endmark :: rest) =
      .instr (.call (leValue (a0 :: as))) (as.length + 3) ∧
    ∀ v, decode cfg (0x09#8 :: v :: a0 :: as ++ endmark :: rest) =
      .instr (.jmpif v (leValue (a0 :: as))) (as.length + 4)

/-- Which addresses the stream can carry: those with no zero byte above byte 0, and so all below 65536 (the spec's
own derivation under R92). -/
def Obligations.StreamCarriesEncodable : Prop :=
  (∀ a, (∃ words len, streamDecode Config.standard words = some (a, len)) ↔
    ∀ i, 1 ≤ i → i < nbytes a → byteAt a i ≠ endmark) ∧
  ∀ a, a < 65536 → streamEncodable Config.standard a = true

/-! ### Stack instructions -/

/-- NOP has no effect; in a run it costs one cycle and counts against the budget, which R66 marks as the spec's own
derivation, over the order of the boundary's tests that is the spec's own decision D14 (log 21). -/
def Obligations.NopHasNoEffect : Prop :=
  (∀ (cfg : Config) ops, decode cfg (0x0C#8 :: ops) = .instr .nop 1) ∧
  (∀ s : State, exec .nop s = .next { s with result := some .continued }) ∧
  ∀ (s : State) r, s.run = some r → s.status = .ok → NoHaltNow s → r.spent = false →
    fetch s = .instr .nop 1 → ipFits s.cfg s.ip 1 = true →
    step s = .next { s with
      halts := s.halts.tail, ip := s.ip + 1, result := some .continued
      run := some { r with steps := r.steps + 1 } }

/-- R67: DROP. -/
def Obligations.DropDiscardsTop : Prop :=
  (∀ (cfg : Config) ops, decode cfg (0x01#8 :: ops) = .instr .drop 1) ∧
  (∀ (s : State) xs v, s.ds = xs ++ [v] →
    exec .drop s = .next { s with ds := xs, result := some .continued }) ∧
  ∀ s : State, s.ds = [] → exec .drop s = .next { s with
    status := if s.strict then .error else s.status, result := some (.failed .stackUnderflow) }

/-- R68: POP, on a call stack that has room. -/
def Obligations.PopMovesToCallStack : Prop :=
  (∀ (cfg : Config) ops, decode cfg (0x02#8 :: ops) = .instr .pop 1) ∧
  (∀ (s : State) xs v, s.ds = xs ++ [v] → withinCap s.cfg.csCap (s.cs.length + 1) = true →
    exec .pop s = .next { s with ds := xs, cs := s.cs ++ [v], result := some .continued }) ∧
  ∀ s : State, s.ds = [] → exec .pop s = .next { s with
    status := if s.strict then .error else s.status, result := some (.failed .stackUnderflow) }

/-- R69: PUSH, on a data stack that has room; the clause for an empty `cl`, which the spec marks as its own decision
D11, is `EmptyLevelsFail`. -/
def Obligations.PushTakesFromFrame : Prop :=
  (∀ (cfg : Config) ops, decode cfg (0x03#8 :: ops) = .instr .push 1) ∧
  (∀ (s : State) ls b ys v, s.cl = ls ++ [b] → s.cs = ys ++ [v] → b < s.cs.length →
    withinCap s.cfg.dsCap (s.ds.length + 1) = true →
    exec .push s = .next { s with cs := ys, ds := s.ds ++ [v], result := some .continued }) ∧
  ∀ (s : State) ls b, s.cl = ls ++ [b] → s.cs.length ≤ b → exec .push s = .next { s with
    status := if s.strict then .error else s.status, result := some (.failed .frameViolation) }

/-- R70: PUSHVAL, on a data stack that has room; its operand may be missing, which fetch finds. -/
def Obligations.PushvalPushesLiteral : Prop :=
  (∀ (cfg : Config) v ops, decode cfg (0x04#8 :: v :: ops) = .instr (.pushval v) 2) ∧
  (∀ cfg : Config, decode cfg [0x04#8] = .cut 1) ∧
  ∀ (s : State) v, withinCap s.cfg.dsCap (s.ds.length + 1) = true →
    exec (.pushval v) s = .next { s with ds := s.ds ++ [v], result := some .continued }

/-- R71: DUP, on a data stack that has room. -/
def Obligations.DupDuplicatesTop : Prop :=
  (∀ (cfg : Config) ops, decode cfg (0x05#8 :: ops) = .instr .dup 1) ∧
  (∀ (s : State) xs v, s.ds = xs ++ [v] → withinCap s.cfg.dsCap (s.ds.length + 1) = true →
    exec .dup s = .next { s with ds := xs ++ [v, v], result := some .continued }) ∧
  ∀ s : State, s.ds = [] → exec .dup s = .next { s with
    status := if s.strict then .error else s.status, result := some (.failed .stackUnderflow) }

/-- R72: SWAP. -/
def Obligations.SwapExchangesTopTwo : Prop :=
  (∀ (cfg : Config) ops, decode cfg (0x06#8 :: ops) = .instr .swap 1) ∧
  (∀ (s : State) xs a b, s.ds = xs ++ [a, b] →
    exec .swap s = .next { s with ds := xs ++ [b, a], result := some .continued }) ∧
  ∀ s : State, s.ds.length < 2 → exec .swap s = .next { s with
    status := if s.strict then .error else s.status, result := some (.failed .stackUnderflow) }

/-! ### Arithmetic -/

/-- R75: INC. -/
def Obligations.IncWrapsUp : Prop :=
  (∀ (cfg : Config) ops, decode cfg (0x07#8 :: ops) = .instr .inc 1) ∧
  (∀ (s : State) xs v, s.ds = xs ++ [v] → ∃ w : Word, w.toNat = (v.toNat + 1) % 256 ∧
    exec .inc s = .next { s with ds := xs ++ [w], result := some .continued }) ∧
  ∀ s : State, s.ds = [] → exec .inc s = .next { s with
    status := if s.strict then .error else s.status, result := some (.failed .stackUnderflow) }

/-- R76: DEC. -/
def Obligations.DecWrapsDown : Prop :=
  (∀ (cfg : Config) ops, decode cfg (0x08#8 :: ops) = .instr .dec 1) ∧
  (∀ (s : State) xs v, s.ds = xs ++ [v] → ∃ w : Word, w.toNat = (v.toNat + 255) % 256 ∧
    exec .dec s = .next { s with ds := xs ++ [w], result := some .continued }) ∧
  ∀ s : State, s.ds = [] → exec .dec s = .next { s with
    status := if s.strict then .error else s.status, result := some (.failed .stackUnderflow) }

/-- INC and DEC undo each other on every non-empty data stack (the spec's own derivation under R77). -/
def Obligations.IncDecUndoEachOther : Prop :=
  ∀ s : State, s.ds ≠ [] →
    (∃ t u, exec .inc s = .next t ∧ exec .dec t = .next u ∧ u = { s with result := some .continued }) ∧
    ∃ t u, exec .dec s = .next t ∧ exec .inc t = .next u ∧ u = { s with result := some .continued }

/-! ### Control transfer -/

/-- R81: JMPIF always pops, and jumps exactly when the popped Word is the value; both operands are fetched, and may
fault, before the stack is looked at. -/
def Obligations.JmpifPopsAndCompares : Prop :=
  (∀ (cfg : Config) v ops target len, streamDecode cfg ops = some (target, len) →
    decode cfg (0x09#8 :: v :: ops) = .instr (.jmpif v target) (2 + len)) ∧
  (∀ (cfg : Config) v ops, streamDecode cfg ops = none →
    decode cfg (0x09#8 :: v :: ops) = .cut (2 + ops.length)) ∧
  (∀ cfg : Config, decode cfg [0x09#8] = .cut 1) ∧
  (∀ (s : State) xs v target, s.ds = xs ++ [v] →
    exec (.jmpif v target) s = .next { s with ds := xs, ip := target, result := some .continued }) ∧
  (∀ (s : State) xs x v target, s.ds = xs ++ [x] → x ≠ v →
    exec (.jmpif v target) s = .next { s with ds := xs, result := some .continued }) ∧
  ∀ (s : State) v target, s.ds = [] → exec (.jmpif v target) s = .next { s with
    status := if s.strict then .error else s.status, result := some (.failed .stackUnderflow) }

/-- R82: CALL, on stacks that have room, the new boundary within the width of a call-level entry: the return address `ip_seq` goes on `cs`, then the new length of `cs` on
`cl`, then the jump; the new boundary is at least 2 above the old length. -/
def Obligations.CallPushesFrame : Prop :=
  (∀ (cfg : Config) ops target len, streamDecode cfg ops = some (target, len) →
    decode cfg (0x0B#8 :: ops) = .instr (.call target) (1 + len)) ∧
  ∀ (s : State) target,
    withinCap s.cfg.csCap (callPush s.ip s.cs).length = true →
    withinCap s.cfg.clCap (s.cl.length + 1) = true →
    addressFits s.cfg (callPush s.ip s.cs).length = true →
    s.cs.length + 2 ≤ (callPush s.ip s.cs).length ∧
    exec (.call target) s = .next { s with
      cs := callPush s.ip s.cs
      cl := s.cl ++ [(callPush s.ip s.cs).length]
      ip := target
      result := some .continued }

/-- R83: GOTO. -/
def Obligations.GotoJumps : Prop :=
  (∀ (cfg : Config) ops target len, streamDecode cfg ops = some (target, len) →
    decode cfg (0x10#8 :: ops) = .instr (.goto target) (1 + len)) ∧
  ∀ (s : State) target, exec (.goto target) s = .next { s with ip := target, result := some .continued }

/-- RET with a matching boundary and an address on the call stack returns to it; with a boundary that does not match it
fails and changes nothing else. The test that tells returning from terminating is the spec's own decision D10. -/
def Obligations.RetReturns : Prop :=
  (∀ (s : State) ls below bytes, s.cl = ls ++ [s.cs.length] → s.cs = below ++ endmark :: bytes.reverse →
    bytes ≠ [] → (∀ w ∈ bytes, w ≠ endmark) →
    exec .ret s = .next { s with cl := ls, cs := below, ip := leValue bytes, result := some .continued }) ∧
  (∀ (s : State) ls below w, s.cl = ls ++ [s.cs.length] → s.cs = below ++ [w, endmark] →
    exec .ret s = .next { s with cl := ls, cs := below, ip := 0, result := some .continued }) ∧
  ∀ (s : State) ls b, s.cl = ls ++ [b] → s.cs.length ≠ b → exec .ret s = .next { s with
    status := if s.strict then .error else s.status, result := some (.failed .frameViolation) }

/-- RET in the outermost frame: the boundary 0 matches an empty call stack, is popped, and the program terminates with
`status` not written. That this is the test for termination is the spec's own decision D10. -/
def Obligations.RetTerminates : Prop :=
  ∀ (s : State) ls, s.cl = ls ++ [0] → s.cs = [] →
    exec .ret s = .next { s with cl := ls, result := some .terminated }

/-- PUSH and RET with an empty call-level stack fail with a frame violation and change nothing else: the spec's own
decision D11. -/
def Obligations.EmptyLevelsFail : Prop :=
  ∀ (s : State) i, s.cl = [] → i = Instr.push ∨ i = Instr.ret → exec i s = .next { s with
    status := if s.strict then .error else s.status, result := some (.failed .frameViolation) }

/-- A RET whose return address cannot be decoded leaves its boundary popped and the call stack empty, nothing rolled
back: the spec's own decisions D12 and D13. -/
def Obligations.MalformedReturnKeepsPops : Prop :=
  ∀ (s : State) ls, s.cl = ls ++ [s.cs.length] → s.cs ≠ [] →
    ((∀ w ∈ s.cs, w ≠ endmark) ∨ s.cs = [endmark]) → exec .ret s = .next { s with
      cl := ls, cs := []
      status := if s.strict then .error else s.status, result := some (.failed .malformedAddress) }

/-! ### The failures -/

/-- R116: the seven instructions fail with a stack underflow on an empty (for SWAP too short) data stack, which under
`STRICT` sets `status` to `error`, and write nothing else; no other instruction or operand fails so. -/
def Obligations.StackUnderflowExactly : Prop :=
  (∀ (i : Instr) (s : State),
    (s.ds = [] ∧ (i = .drop ∨ i = .pop ∨ i = .dup ∨ i = .inc ∨ i = .dec ∨ ∃ v target, i = .jmpif v target)) ∨
      (s.ds.length < 2 ∧ i = .swap) →
    exec i s = .next { s with
      status := if s.strict then .error else s.status, result := some (.failed .stackUnderflow) }) ∧
  ∀ (i : Instr) (s t : State), exec i s = .next t → t.result = some (.failed .stackUnderflow) →
    (s.ds = [] ∧ (i = .drop ∨ i = .pop ∨ i = .dup ∨ i = .inc ∨ i = .dec ∨ ∃ v target, i = .jmpif v target)) ∨
      (s.ds.length < 2 ∧ i = .swap)

/-- The other failures of an instruction: a frame violation is PUSH's or RET's alone, on exactly the frames the spec says
(an empty `cl` among them, its own decision D11); a malformed address is RET's alone; no instruction of the table
fails as an invalid opcode. -/
def Obligations.OtherFailuresExactly : Prop :=
  ∀ (i : Instr) (s t : State), exec i s = .next t →
    (t.result = some (.failed .frameViolation) ↔
      (i = .push ∧ ∀ b, s.cl.getLast? = some b → s.cs.length ≤ b) ∨
      (i = .ret ∧ s.cl.getLast? ≠ some s.cs.length)) ∧
    (t.result = some (.failed .malformedAddress) ↔
      i = .ret ∧ s.cl.getLast? = some s.cs.length ∧ s.cs ≠ [] ∧ callPop s.cs = none) ∧
    t.result ≠ some (.failed .invalidOpcode)

/-- The strict policy: an instruction writes `status` only by failing under `STRICT`, and then writes `error`. The state a
failure leaves is the spec's own decision D24. -/
def Obligations.StrictPolicy : Prop :=
  ∀ (i : Instr) (s t : State), exec i s = .next t →
    ((∃ k, t.result = some (.failed k)) ∧ t.status = if s.strict then .error else s.status) ∨
    ((t.result = some .continued ∨ t.result = some .terminated) ∧ t.status = s.status)

/-- An invalid opcode takes one cycle, fails as F3 under the strict policy, and changes nothing but `ip`, by one Word, the
spec's own decision D7. So it does by the host's `step`, whatever `status` is, and in a run, which counts the cycle and
is still in progress. -/
def Obligations.InvalidOpcodeFails : Prop :=
  ∀ (s : State) op, fetch s = .unknown op → ipFits s.cfg s.ip 1 = true →
    cycle s = .next { s with
      ip := s.ip + 1
      status := if s.strict then .error else s.status, result := some (.failed .invalidOpcode) } ∧
    (∀ strict rest, s.run = none → s.commands = .step strict :: rest → step s = .next { s with
      commands := rest, strict := strict, ip := s.ip + 1
      status := if strict then .error else s.status, result := some (.failed .invalidOpcode) }) ∧
    ∀ r, s.run = some r → s.status = .ok → NoHaltNow s → r.spent = false → step s = .next { s with
      halts := s.halts.tail, ip := s.ip + 1
      status := if s.strict then .error else .ok, result := some (.failed .invalidOpcode)
      run := some { r with steps := r.steps + 1 } }

/-- A fetch cut short ends the cycle: the read that failed is the first index that does not exist, `status` is `error`
whatever `STRICT` is, no stack changes, and `ip` is left at that index, the spec's own decision D8. So it does by the
host's `step`, whatever `status` is, and in a run, which counts the cycle and returns at its next boundary. -/
def Obligations.FetchFaultEndsCycle : Prop :=
  ∀ (s : State) k, Memory.wf s.mem = true → fetch s = .cut k → ipFits s.cfg s.ip k = true →
    Memory.read s.mem (s.ip + k) = none ∧ (∀ j, j < k → (Memory.read s.mem (s.ip + j)).isSome = true) ∧
    cycle s = .next { s with ip := s.ip + k, status := .error, result := some .faulted } ∧
    (∀ strict rest, s.run = none → s.commands = .step strict :: rest → step s = .next { s with
      commands := rest, strict := strict, ip := s.ip + k, status := .error, result := some .faulted }) ∧
    ∀ r, s.run = some r → s.status = .ok → NoHaltNow s → r.spent = false → step s = .next { s with
      halts := s.halts.tail, ip := s.ip + k, status := .error, result := some .faulted
      run := some { r with steps := r.steps + 1 } }

/-- A read at an index `>= N` answers no Word; a fetch that succeeds has read only indices below `N`; a fetch that
reads at `N` or beyond, whichever Word of the instruction it reads there, is a fetch fault with `status = error` (R39).
That with `ip` at `N` or beyond nothing else changes, `ip` included, is the spec's own decision D8 (log 15). -/
def Obligations.FetchReadsOnlyExisting : Prop :=
  (∀ (s : State) i k, Memory.wf s.mem = true → fetch s = .instr i k → 1 ≤ k ∧ s.ip + k ≤ s.N) ∧
  (∀ (s : State) op, Memory.wf s.mem = true → fetch s = .unknown op →
    s.ip < s.N ∧ Memory.read s.mem s.ip = some op) ∧
  (∀ (s : State) a, Memory.wf s.mem = true → ((Memory.read s.mem a).isSome = true ↔ a < s.N)) ∧
  (∀ (s : State) k, Memory.wf s.mem = true → fetch s = .cut k → ipFits s.cfg s.ip k = true →
    s.N ≤ s.ip + k ∧ ∃ t, cycle s = .next t ∧ t.status = .error ∧ t.result = some .faulted) ∧
  ∀ s : State, Memory.wf s.mem = true → s.N ≤ s.ip →
    cycle s = .next { s with status := .error, result := some .faulted }

/-- A cycle started with `status = ok` leaves it `ok`, or leaves `error` exactly when it faulted or failed under
`STRICT`. -/
def Obligations.ErrorIsExplained : Prop :=
  ∀ s t : State, s.status = .ok → cycle s = .next t →
    (t.status = .ok ∨ t.status = .error) ∧
    (t.status = .error ↔
      t.result = some .faulted ∨ (s.strict = true ∧ ∃ k, t.result = some (.failed k)))

/-! ### The address codec -/

/-- `CallPush` writes ENDMARK deepest, then the bytes most significant first, byte 0 on top; the number of bytes is the
least that holds the address (the spec's own decision D9); address 0 is the double-zero form. -/
def Obligations.CallPushLayout : Prop :=
  (∀ cs : List Word, callPush 0 cs = cs ++ [0x00#8, 0x00#8]) ∧
  ∀ (a : Nat) (cs : List Word), a ≠ 0 →
    (∃ bytes, callPush a cs = cs ++ endmark :: bytes ∧ bytes.length = nbytes a ∧
      (∀ i, i < nbytes a → bytes[nbytes a - 1 - i]? = some (byteAt a i)) ∧ bytes.head? ≠ some endmark) ∧
    a < 2 ^ (8 * nbytes a) ∧ ∀ k, 1 ≤ k → a < 2 ^ (8 * k) → nbytes a ≤ k

/-- What `CallPop` does to every call stack: pops bytes down to the ENDMARK below them; unwinds the double-zero form,
popping one more Word unseen; fails where no Word is zero, or only a lone one (the spec's own decision D13). -/
def Obligations.CallPopDecodes : Prop :=
  (∀ below bytes : List Word, bytes ≠ [] → (∀ w ∈ bytes, w ≠ endmark) →
    callPop (below ++ endmark :: bytes.reverse) = some (leValue bytes, below)) ∧
  (∀ (below : List Word) w, callPop (below ++ [w, endmark]) = some (0, below)) ∧
  ∀ cs : List Word, callPop cs = none ↔ (∀ w ∈ cs, w ≠ endmark) ∨ cs = [endmark]

/-- The round trip and exactly where it holds: `a = 0`, or no byte of `a` is zero (the spec's own derivation under
R95). -/
def Obligations.RoundTripExactly : Prop :=
  ∀ (a : Nat) (cs : List Word),
    callPop (callPush a cs) = some (a, cs) ↔ (a = 0 ∨ ∀ i, i < nbytes a → byteAt a i ≠ endmark)

/-- What `CallPop` returns for an address outside the round-trip domain, and that it never removes a Word of what lay
beneath (the spec's own derivation under R96). -/
def Obligations.OutsideRoundTrip : Prop :=
  (∀ (a : Nat) (below : List Word), a ≠ 0 → byteAt a 0 = endmark → ∃ left,
    callPop (callPush a below) = some (0, below ++ left) ∧ left.length = nbytes a - 1) ∧
  (∀ (a j : Nat) (below : List Word), 1 ≤ j → j < nbytes a → byteAt a j = endmark →
    (∀ i, i < j → byteAt a i ≠ endmark) → ∃ left,
    callPop (callPush a below) = some (a % 2 ^ (8 * j), below ++ left) ∧ left.length = nbytes a - j) ∧
  ∀ (a : Nat) (below : List Word), ∃ target left, callPop (callPush a below) = some (target, below ++ left)

/-! ### Calls and frames -/

/-- A CALL and the RET that meets its frame again restore the two stacks and come back just past the CALL, for every return
address in the round-trip domain (the spec's own derivation under R88). -/
def Obligations.CallThenReturn : Prop :=
  ∀ (s t u : State) (target : Nat), exec (.call target) s = .next t → roundTrips s.ip = true →
    u.cs = t.cs → u.cl = t.cl →
    exec .ret u = .next { u with cs := s.cs, cl := s.cl, ip := s.ip, result := some .continued }

/-- Between a CALL and its RET the Words of the call stack below the active boundary do not change: no instruction but RET
changes them, or removes a boundary (the spec's own derivation under R88). -/
def Obligations.FrameBelowBoundaryKept : Prop :=
  ∀ (i : Instr) (s t : State) ls b, exec i s = .next t → i ≠ .ret → s.cl = ls ++ [b] → b ≤ s.cs.length →
    t.cs.take b = s.cs.take b ∧ b ≤ t.cs.length ∧ ∃ more, t.cl = s.cl ++ more ∧
      ((∀ target, i ≠ .call target) → more = [])

/-- Which instruction reaches which space: a stack that changed, and the instructions that could have changed it. -/
def Obligations.InstructionsReachTheirSpaces : Prop :=
  ∀ (i : Instr) (s t : State), exec i s = .next t →
    (t.ds ≠ s.ds → i = .drop ∨ i = .pop ∨ i = .push ∨ (∃ v, i = .pushval v) ∨ i = .dup ∨ i = .swap ∨
      i = .inc ∨ i = .dec ∨ ∃ v target, i = .jmpif v target) ∧
    (t.cs ≠ s.cs → i = .pop ∨ i = .push ∨ i = .ret ∨ ∃ target, i = .call target) ∧
    (t.cl ≠ s.cl → i = .ret ∨ ∃ target, i = .call target) ∧
    (t.ip ≠ s.ip → i = .ret ∨ (∃ target, i = .call target) ∨ (∃ target, i = .goto target) ∨
      ∃ v target, i = .jmpif v target)

/-- R33: no instruction writes instruction memory, and no step of the machine does but one that accepts the host's
`loadprogram`, which replaces the whole of it. -/
def Obligations.OnlyLoadprogramWritesMemory : Prop :=
  (∀ (i : Instr) (s t : State), exec i s = .next t → ∀ a, Memory.read t.mem a = Memory.read s.mem a) ∧
  ∀ s t : State, step s = .next t →
    (∀ a, Memory.read t.mem a = Memory.read s.mem a) ∨
    ∃ bytes, s.run = none ∧ s.commands = .loadprogram bytes :: t.commands ∧
      ∀ a, Memory.read t.mem a = bytes[a]?

/-! ### A step runs the decoded instruction -/

/-- With the host's `step` pending on an idle machine, one step is `exec` of the instruction at `ip`, with `ip` past
it, whatever `status` is. -/
def Obligations.StepCommandRunsDecoded : Prop :=
  ∀ (s : State) strict rest i len, s.run = none → s.commands = .step strict :: rest →
    decode s.cfg (Memory.wordsFrom s.mem s.ip) = .instr i len → ipFits s.cfg s.ip len = true →
    step s = exec i { s with commands := rest, strict := strict, ip := s.ip + len }

/-- In a run with `status = ok`, no halt pending and budget left, one step is `exec` of the instruction at `ip`, with `ip`
past it; then the cycle is counted, or the run ends if the program terminated. -/
def Obligations.RunStepRunsDecoded : Prop :=
  ∀ (s : State) r i len, s.run = some r → s.status = .ok → NoHaltNow s → r.spent = false →
    decode s.cfg (Memory.wordsFrom s.mem s.ip) = .instr i len → ipFits s.cfg s.ip len = true →
    (∀ t, exec i { s with halts := s.halts.tail, ip := s.ip + len } = .next t →
      step s = .next { t with
        run := if t.result = some .terminated then none else some { r with steps := r.steps + 1 } }) ∧
    ∀ x, exec i { s with halts := s.halts.tail, ip := s.ip + len } = .refused x → step s = .refused x

/-! ### The host operations -/

/-- R102, R137: `loadprogram` replaces the memory, byte `k` at index `k`, and nothing else. -/
def Obligations.LoadprogramReplacesMemory : Prop :=
  ∀ (s : State) bytes rest, s.run = none → s.commands = .loadprogram bytes :: rest →
    withinCap s.cfg.memCap bytes.length = true → ∃ m,
    step s = .next { s with commands := rest, mem := m } ∧ m.length = bytes.length ∧
    Memory.wf m = true ∧ ∀ a, Memory.read m a = bytes[a]?

/-- `setdata` replaces the whole data stack and nothing else, its first Word at the bottom, the spec's own decision
D22. -/
def Obligations.SetdataReplacesDataStack : Prop :=
  ∀ (s : State) words rest, s.run = none → s.commands = .setdata words :: rest →
    withinCap s.cfg.dsCap words.length = true → step s = .next { s with commands := rest, ds := words }

/-- R136: the `reset` command empties the stacks and sets `ip` to 0; memory and status are as they were. (With
`RESET_CLEARS_STATUS`, the spec's own decision D17, see `ParametersSelectReadings`.) -/
def Obligations.ResetCommandKeepsMemoryAndStatus : Prop :=
  ∀ (s : State) rest, s.run = none → s.commands = .reset :: rest → s.cfg.resetClearsStatus = false →
    step s = .next { s with commands := rest, ds := [], cs := [], cl := [], ip := 0 }

/-- `run` pushes the sentinel boundary 0 and starts counting at 0, whatever `status` is and without writing it, the
spec's own decision D16. -/
def Obligations.RunPushesSentinel : Prop :=
  ∀ (s : State) strict maxsteps rest, s.run = none → s.commands = .run strict maxsteps :: rest →
    withinCap s.cfg.clCap (s.cl.length + 1) = true →
    step s = .next { s with
      commands := rest, strict := strict, cl := s.cl ++ [0]
      run := some { maxsteps := maxsteps, steps := 0 } }

/-- R123: the host's `halt` sets `status` to `user`, on an idle machine at once and in a run at the next step boundary,
where the run returns without a cycle. (That it does so whatever `status` was is the spec's own decision D18.) -/
def Obligations.HaltStopsAtBoundary : Prop :=
  (∀ (s : State) rest, s.run = none → s.commands = .halt :: rest →
    step s = .next { s with commands := rest, status := .user }) ∧
  ∀ (s : State) r later, s.run = some r → s.halts = true :: later →
    step s = .next { s with halts := later, status := .user, run := none }

/-! ### The run loop -/

/-- R122: a spent budget sets `status` to `maxsteps` and ends the run at the boundary, whatever `STRICT` is; nothing
else ever sets that value, not an unbounded run and not the host's `step`. -/
def Obligations.BudgetExhaustionEndsRun : Prop :=
  (∀ (s : State) r m, s.run = some r → r.maxsteps = some m → m ≤ r.steps → s.status = .ok → NoHaltNow s →
    step s = .next { s with halts := s.halts.tail, status := .maxsteps, run := none }) ∧
  ∀ s t : State, step s = .next t → t.status = .maxsteps → s.status ≠ .maxsteps →
    ∃ r m, s.run = some r ∧ r.maxsteps = some m ∧ m ≤ r.steps

/-- A terminal status ends a run at the boundary with no cycle, before the budget is looked at: the spec's own decisions
D14, D16 and D31. -/
def Obligations.TerminalStatusEndsRun : Prop :=
  ∀ (s : State) r, s.run = some r → s.status ≠ .ok → NoHaltNow s →
    step s = .next { s with halts := s.halts.tail, run := none }

/-- R124: RET in the outermost frame with an empty call stack ends the run with `status` not written, and it is the only
way a run ends with `status = ok`. -/
def Obligations.OnlyRetEndsRunOk : Prop :=
  (∀ (s : State) r ls len, s.run = some r → s.status = .ok → NoHaltNow s → r.spent = false →
    fetch s = .instr .ret len → ipFits s.cfg s.ip len = true → s.cl = ls ++ [0] → s.cs = [] →
    step s = .next { s with
      halts := s.halts.tail, ip := s.ip + len, cl := ls, result := some .terminated, run := none }) ∧
  ∀ (s t : State) r, s.run = some r → step s = .next t → t.run = none → t.status = .ok →
    s.status = .ok ∧ s.cs = [] ∧ (∃ len, fetch s = .instr .ret len) ∧ ∃ ls, s.cl = ls ++ [0] ∧ t.cl = ls

/-- While a run is in progress the strict flag, the parameters and the host's other operations are held: the spec's own
decisions D20 and D23. -/
def Obligations.RunHoldsInputs : Prop :=
  ∀ (s t : State) r, s.run = some r → step s = .next t →
    t.strict = s.strict ∧ t.cfg = s.cfg ∧ t.commands = s.commands ∧ t.halts = s.halts.tail ∧
      ∀ a, Memory.read t.mem a = Memory.read s.mem a

/-- With the default parameter no step ever brings a terminal status back to `ok` (the spec's own derivation under
R125). -/
def Obligations.TerminalStatusNeverOkAgain : Prop :=
  ∀ s t : State, s.cfg.resetClearsStatus = false → s.status ≠ .ok → step s = .next t →
    t.status ≠ .ok ∧ t.cfg.resetClearsStatus = false

/-- R146: every cycle of a run is counted and a run with a finite budget returns having performed no more of them than the
budget: a boundary at which the budget is spent performs none, and ends the run; a run without one returns only by normal termination, by a halt, or on a terminal status, and what makes
`status` terminal in it is a halt, a fetch fault or a strict failure. The sizes of the instance are the unbounded ones
the rules use. -/
def Obligations.BoundedExecution : Prop :=
  (∀ (s : State) r m, s.run = some r → r.maxsteps = some m → Unbounded s.cfg →
    (∃ j t, j ≤ m - r.steps + 1 ∧ Host.Core.run Sys2Proof.core j s = .next t ∧ State.run t = none) ∧
    ∀ t r', step s = .next t → t.run = some r' →
      r'.maxsteps = some m ∧ r'.steps = r.steps + 1 ∧ r'.steps ≤ m) ∧
  (∀ (s t : State) r m, s.run = some r → r.maxsteps = some m → m ≤ r.steps → step s = .next t →
    t = { s with halts := s.halts.tail, status := t.status, run := none }) ∧
  ∀ (s t : State) r, s.run = some r → r.maxsteps = none → step s = .next t →
    (t.run = none →
      (t.result = some .terminated ∧ t.status = .ok) ∨ s.status ≠ .ok ∨ s.halts.head? = some true) ∧
    (s.status = .ok → t.status ≠ .ok → s.halts.head? = some true ∨ t.result = some .faulted ∨
      (s.strict = true ∧ ∃ k, t.result = some (.failed k)))

/-! ### Invariants -/

/-- R25: the start values, which are the state after the hardware reset. (The memory's is `InvariantAtReset`, since the
spec marks it as its own decision D4.) -/
def Obligations.HardwareResetState : Prop :=
  State.reset.ds = [] ∧ State.reset.cs = [] ∧ State.reset.cl = [] ∧ State.reset.ip = 0 ∧
    State.reset.status = .ok

/-- The invariant holds after the hardware reset, whose memory is empty (the spec's own decision D4), whatever the host
is going to do. -/
def Obligations.InvariantAtReset : Prop :=
  State.reset.N = 0 ∧ ∀ commands halts, Inv { State.reset with commands := commands, halts := halts }

/-- EVERY STEP KEEPS THE INVARIANT, from every state that has it: the memory stays canonical, the sizes of the
instance are kept, and in a run the boundaries above the sentinel frame the call stack. -/
def Obligations.StepKeepsInvariant : Prop :=
  ∀ s t : State, Inv s → step s = .next t → Inv t

/-- R16: while a run is in progress the call-level stack is not empty and the active boundary is not above the call
stack's length: in every state with the frame invariant, and so in every state that any host brings about from reset,
with any program, any inputs and any parameters. -/
def Obligations.RunsKeepFrames : Prop :=
  (∀ s : State, FrameInv s → s.run.isSome = true →
    s.cl ≠ [] ∧ ∃ b, s.cl.getLast? = some b ∧ b ≤ s.cs.length) ∧
  ∀ (cfg : Config) (commands : List Command) (halts : List Bool) (k : Nat) (t : State),
    Host.Core.run Sys2Proof.core k { State.reset with cfg := cfg, commands := commands, halts := halts } = .next t →
    t.run.isSome = true → t.cl ≠ [] ∧ ∃ b, t.cl.getLast? = some b ∧ b ≤ t.cs.length

/-- No cycle of a run fails with a malformed address, in any state with the frame invariant: it goes beyond R99 (c),
the spec's own derivation, which says so of one run from the reset state only. -/
def Obligations.NoMalformedAddressInRun : Prop :=
  ∀ (s t : State) r, FrameInv s → s.run = some r → step s = .next t → t.run.isSome = true →
    t.result ≠ some (.failed .malformedAddress)

/-! ### Parameters and sizes -/

/-- With the unbounded sizes the rules use, every step takes a next state: nothing is refused and nothing stops the
machine. -/
def Obligations.EveryStepCompletes : Prop :=
  ∀ s : State, Unbounded s.cfg → ∃ t, step s = .next t ∧ t.cfg = s.cfg

/-- Where a size is finite and exceeded the model refuses, each by its own name: the capacities, the width of a call-level
entry, and the width of `ip` whatever the fetch found (U3, U7 of 93_implementation_defined.md; log 3, log 4). -/
def Obligations.ExceededSizesRefused : Prop :=
  (∀ s : State, withinCap s.cfg.dsCap (s.ds.length + 1) = false →
    (∀ v, exec (.pushval v) s = .refused .dataStackCapacity) ∧
    (s.ds ≠ [] → exec .dup s = .refused .dataStackCapacity) ∧
    ∀ ls b, s.cl = ls ++ [b] → b < s.cs.length → exec .push s = .refused .dataStackCapacity) ∧
  (∀ s : State, withinCap s.cfg.csCap (s.cs.length + 1) = false → s.ds ≠ [] →
    exec .pop s = .refused .callStackCapacity) ∧
  (∀ (s : State) target,
    (withinCap s.cfg.csCap (callPush s.ip s.cs).length = false →
      exec (.call target) s = .refused .callStackCapacity) ∧
    (withinCap s.cfg.csCap (callPush s.ip s.cs).length = true →
      (withinCap s.cfg.clCap (s.cl.length + 1) = false →
        exec (.call target) s = .refused .callLevelCapacity) ∧
      (withinCap s.cfg.clCap (s.cl.length + 1) = true →
        addressFits s.cfg (callPush s.ip s.cs).length = false →
        exec (.call target) s = .refused .callLevelWidth))) ∧
  (∀ (s : State) rest, s.run = none →
    (∀ bytes, s.commands = .loadprogram bytes :: rest → withinCap s.cfg.memCap bytes.length = false →
      step s = .refused .memoryCapacity) ∧
    (∀ words, s.commands = .setdata words :: rest → withinCap s.cfg.dsCap words.length = false →
      step s = .refused .dataStackCapacity) ∧
    ∀ strict maxsteps, s.commands = .run strict maxsteps :: rest →
      withinCap s.cfg.clCap (s.cl.length + 1) = false → step s = .refused .callLevelCapacity) ∧
  ∀ (s : State) k,
    (fetch s = .cut k ∨ (∃ i, fetch s = .instr i k) ∨ (k = 1 ∧ ∃ op, fetch s = .unknown op)) →
    ipFits s.cfg s.ip k = false →
    cycle s = .refused .addressWidth ∧
    (∀ strict rest, s.run = none → s.commands = .step strict :: rest → step s = .refused .addressWidth) ∧
    ∀ r, s.run = some r → s.status = .ok → NoHaltNow s → r.spent = false → step s = .refused .addressWidth

/-- The three Boolean parameters select the other readings (the spec's own decisions D5, D6 and D17). -/
def Obligations.ParametersSelectReadings : Prop :=
  (∀ (cfg : Config) ops, cfg.opc00IsNop = true → decode cfg (0x00#8 :: ops) = .instr .nop 1) ∧
  (∀ (cfg : Config) ops, cfg.opc00IsNop = false → decode cfg (0x00#8 :: ops) = .unknown 0x00#8) ∧
  (∀ (cfg : Config) ops, cfg.streamFirstByteTerminates = true →
    streamDecode cfg (endmark :: ops) = some (0, 1)) ∧
  ∀ (s : State) rest, s.run = none → s.commands = .reset :: rest → s.cfg.resetClearsStatus = true →
    step s = .next { s with commands := rest, ds := [], cs := [], cl := [], ip := 0, status := .ok }
end

