-- ==== Sys2Proof/Laws/Bytes.lean ====
section
/-! SUPPORT. The bytes of an address: what `nbytes` and `leBytes` are, and the value of bytes. -/

namespace Sys2Proof.Machine

/-- `a < 2^(8 * nbytes a)` (R6). -/
theorem lt_pow_nbytes (a : Nat) : a < 2 ^ (8 * nbytes a) := by
  have h : a < 2 ^ (a.log2 + 1) := Nat.lt_log2_self
  have h2 : a.log2 + 1 ≤ 8 * nbytes a := by unfold nbytes; omega
  exact lt_of_lt_of_le h (Nat.pow_le_pow_right (by omega) h2)

/-- `nbytes a` is the least such number that is at least 1 (R6). -/
theorem nbytes_le (a k : Nat) (hk : 1 ≤ k) (h : a < 2 ^ (8 * k)) : nbytes a ≤ k := by
  unfold nbytes
  by_cases ha : a = 0
  · subst ha; simpa using hk
  · have : a.log2 < 8 * k := (Nat.log2_lt ha).2 h
    omega

theorem nbytes_pos (a : Nat) : 1 ≤ nbytes a := by unfold nbytes; omega

/-- An address below 256 is one byte. -/
theorem nbytes_small {a : Nat} (h : a < 256) : nbytes a = 1 :=
  le_antisymm (nbytes_le a 1 le_rfl (by simpa using h)) (nbytes_pos a)

/-- An address of 256 or more has one byte more than its quotient by 256. -/
theorem nbytes_step {a : Nat} (h : 256 ≤ a) : nbytes a = nbytes (a / 256) + 1 := by
  apply le_antisymm
  · apply nbytes_le _ _ (by omega)
    have := lt_pow_nbytes (a / 256)
    rw [Nat.div_lt_iff_lt_mul (by norm_num)] at this
    rwa [show 8 * (nbytes (a / 256) + 1) = 8 * nbytes (a / 256) + 8 by ring, pow_add]
  · have hn : 2 ≤ nbytes a := by
      by_contra hc
      have h1 : nbytes a = 1 := by have := nbytes_pos a; omega
      have := lt_pow_nbytes a
      rw [h1] at this
      omega
    have : nbytes (a / 256) ≤ nbytes a - 1 := by
      apply nbytes_le _ _ (by omega)
      have h2 := lt_pow_nbytes a
      rw [Nat.div_lt_iff_lt_mul (by norm_num)]
      rwa [show 8 * nbytes a = 8 * (nbytes a - 1) + 8 by omega, pow_add] at h2
    omega

theorem byteAt_succ (a i : Nat) : byteAt a (i + 1) = byteAt (a / 256) i := by
  unfold byteAt
  rw [show 8 * (i + 1) = 8 + 8 * i by ring, Nat.shiftRight_add, Nat.shiftRight_eq_div_pow a 8]

@[simp] theorem leBytes_length (a : Nat) : (leBytes a).length = nbytes a := by simp [leBytes]

theorem leBytes_getElem? (a i : Nat) :
    (leBytes a)[i]? = if i < nbytes a then some (byteAt a i) else none := by
  unfold leBytes
  split <;> simp_all

theorem leBytes_small {a : Nat} (h : a < 256) : leBytes a = [BitVec.ofNat 8 a] := by
  simp [leBytes, nbytes_small h, byteAt]

/-- The bytes of `a` are its low byte, then the bytes of its quotient. -/
theorem leBytes_step {a : Nat} (h : 256 ≤ a) :
    leBytes a = BitVec.ofNat 8 a :: leBytes (a / 256) := by
  unfold leBytes
  rw [nbytes_step h, List.range_succ_eq_map]
  simp [byteAt_succ]
  simp [byteAt]

/-- Induction over an address byte by byte. -/
theorem bytes_induction {P : Nat → Prop} (small : ∀ a, a < 256 → P a)
    (step : ∀ a, 256 ≤ a → P (a / 256) → P a) (a : Nat) : P a := by
  induction a using Nat.strong_induction_on with
  | _ a ih =>
    by_cases h : a < 256
    · exact small a h
    · exact step a (by omega) (ih (a / 256) (by omega))

/-- The bytes of an address give it back (R57, R91). -/
@[simp] theorem leValue_leBytes (a : Nat) : leValue (leBytes a) = a := by
  induction a using bytes_induction with
  | small a h => simp [leBytes_small h, leValue, Nat.mod_eq_of_lt h]
  | step a h ih => rw [leBytes_step h]; simp only [leValue, ih, BitVec.toNat_ofNat]; omega

/-- The top byte of an address other than 0 is not zero. -/
theorem leBytes_getLast_ne {a : Nat} (ha : a ≠ 0) :
    (leBytes a).getLast? ≠ some endmark := by
  induction a using bytes_induction with
  | small a h =>
    simp only [leBytes_small h, List.getLast?_singleton, ne_eq, Option.some.injEq]
    intro hc
    have := congrArg BitVec.toNat hc
    simp [Nat.mod_eq_of_lt h] at this
    exact ha this
  | step a h ih =>
    rw [leBytes_step h, List.getLast?_cons]
    have h1 := ih (by omega)
    cases hg : (leBytes (a / 256)).getLast? with
    | none => simp [leBytes, nbytes] at hg
    | some w => rw [hg] at h1; simpa using h1

theorem leValue_append (xs ys : List Word) :
    leValue (xs ++ ys) = leValue xs + 2 ^ (8 * xs.length) * leValue ys := by
  induction xs with
  | nil => simp [leValue]
  | cons x xs ih =>
    simp only [List.cons_append, leValue, ih, List.length_cons]
    rw [show 8 * (xs.length + 1) = 8 * xs.length + 8 by ring, pow_add]
    ring

theorem leValue_lt (xs : List Word) : leValue xs < 2 ^ (8 * xs.length) := by
  induction xs with
  | nil => simp [leValue]
  | cons x xs ih =>
    simp only [leValue, List.length_cons]
    have := x.isLt
    rw [show 8 * (xs.length + 1) = 8 * xs.length + 8 by ring, pow_add]
    omega

end Sys2Proof.Machine
end

