-- ==== Sys2Proof/Laws/Codec.lean ====
section
/-! SUPPORT. What the loops of the address codec do: the stream decoder (R90) and the call-stack decoder (R94). -/

namespace Sys2Proof.Machine

/-- No Word of `ws` is ENDMARK. -/
abbrev NoMark (ws : List Word) : Prop := ∀ w ∈ ws, w ≠ endmark

/-- A list of Words with an ENDMARK splits at the first one. -/
theorem split_at_mark (ws : List Word) : NoMark ws ∨ ∃ as rest, ws = as ++ endmark :: rest ∧ NoMark as := by
  induction ws with
  | nil => exact .inl (by simp [NoMark])
  | cons w ws ih =>
    by_cases hw : w = endmark
    · exact .inr ⟨[], ws, by simp [hw], by simp [NoMark]⟩
    · rcases ih with h | ⟨as, rest, rfl, h⟩
      · exact .inl (by simpa [NoMark, hw] using h)
      · exact .inr ⟨w :: as, rest, by simp, by simpa [NoMark, hw] using h⟩

/-- The loop of `StreamDecode` over a field that has its terminator. -/
theorem streamTail_field (as rest : List Word) (h : NoMark as) (t pos : Nat) :
    streamTail t pos (as ++ endmark :: rest) =
      some (t + 2 ^ (8 * pos) * leValue as, pos + as.length + 1) := by
  induction as generalizing t pos with
  | nil => simp [streamTail, leValue]
  | cons a as ih =>
    have ha : a ≠ endmark := h a (by simp)
    have := ih (fun w hw => h w (by simp [hw])) (t + a.toNat <<< (8 * pos)) (pos + 1)
    simp only [List.cons_append, streamTail, ha, if_false, this, leValue, List.length_cons]
    congr 2
    · rw [Nat.shiftLeft_eq, show 8 * (pos + 1) = 8 * pos + 8 by ring, pow_add]; ring
    · omega

/-- The loop of `StreamDecode` over Words with no terminator runs out. -/
theorem streamTail_none (as : List Word) (h : NoMark as) (t pos : Nat) : streamTail t pos as = none := by
  induction as generalizing t pos with
  | nil => rfl
  | cons a as ih =>
    have ha : a ≠ endmark := h a (by simp)
    simp only [streamTail, ha, if_false]
    exact ih (fun w hw => h w (by simp [hw])) _ _

/-- Everything `StreamDecode` can do under the default reading: take an address field of at least two Words,
or run out. -/
theorem streamDecode_cases {cfg : Config} (hc : cfg.streamFirstByteTerminates = false) (ws : List Word) :
    (streamDecode cfg ws = none ∧ (ws = [] ∨ ∃ a as, ws = a :: as ∧ NoMark as)) ∨
      ∃ a as rest, ws = a :: as ++ endmark :: rest ∧ NoMark as ∧
        streamDecode cfg ws = some (leValue (a :: as), as.length + 2) := by
  cases ws with
  | nil => exact .inl ⟨rfl, .inl rfl⟩
  | cons a ws =>
    rcases split_at_mark ws with h | ⟨as, rest, rfl, h⟩
    · exact .inl ⟨by simp [streamDecode, hc, streamTail_none ws h], .inr ⟨a, ws, rfl, h⟩⟩
    · refine .inr ⟨a, as, rest, by simp, h, ?_⟩
      simp only [streamDecode, hc, Bool.false_and, Bool.false_eq_true, if_false,
        streamTail_field as rest h, leValue]
      congr 2
      omega

/-- Bytes whose top byte is not zero, or a single byte, are the minimal bytes of their value. -/
theorem leBytes_leValue (a : Word) (as : List Word) (h : as = [] ∨ as.getLast? ≠ some endmark) :
    leBytes (leValue (a :: as)) = a :: as := by
  induction as generalizing a with
  | nil =>
    have := a.isLt
    rw [leBytes_small (by simp [leValue]; omega)]
    simp [leValue]
  | cons b bs ih =>
    have hb : bs = [] ∨ bs.getLast? ≠ some endmark := by
      cases bs with
      | nil => exact .inl rfl
      | cons c cs => rcases h with h | h
                     · simp at h
                     · exact .inr (by simpa using h)
    have hv := ih b hb
    have hpos : leValue (b :: bs) ≠ 0 := by
      intro h0
      rw [h0, leBytes_small (by norm_num)] at hv
      obtain ⟨rfl, rfl⟩ : BitVec.ofNat 8 0 = b ∧ [] = bs := by simpa using hv
      simp at h
    have hlt := a.isLt
    have hval : leValue (a :: b :: bs) = a.toNat + 256 * leValue (b :: bs) := rfl
    rw [leBytes_step (by omega)]
    have h1 : leValue (a :: b :: bs) / 256 = leValue (b :: bs) := by omega
    rw [h1, hv]
    congr 1
    apply BitVec.eq_of_toNat_eq
    simp [hval, Nat.add_mod]
    omega

/-- The loop of `CallPop` past its first Word, where an ENDMARK is left. -/
theorem callPopLoop_mark (as rest : List Word) (h : NoMark as) (t pos : Nat) (hp : 0 < pos) :
    callPopLoop t pos (as ++ endmark :: rest) = some (t + 2 ^ (8 * pos) * leValue as, rest) := by
  induction as generalizing t pos with
  | nil => simp [callPopLoop, leValue]; omega
  | cons a as ih =>
    have ha : a ≠ endmark := h a (by simp)
    have := ih (fun w hw => h w (by simp [hw])) (t + a.toNat <<< (8 * pos)) (pos + 1) (by omega)
    simp only [List.cons_append, callPopLoop, ha, if_false, this, leValue]
    congr 2
    rw [Nat.shiftLeft_eq, show 8 * (pos + 1) = 8 * pos + 8 by ring, pow_add]; ring

/-- The loop of `CallPop` where no ENDMARK is left fails. -/
theorem callPopLoop_none (as : List Word) (h : NoMark as) (t pos : Nat) : callPopLoop t pos as = none := by
  induction as generalizing t pos with
  | nil => rfl
  | cons a as ih =>
    have ha : a ≠ endmark := h a (by simp)
    simp only [callPopLoop, ha, if_false]
    exact ih (fun w hw => h w (by simp [hw])) _ _

/-- `CallPop` over `cs` read from the top: an address with its ENDMARK below it. -/
theorem callPop_address (below bytes : List Word) (hne : bytes ≠ []) (h : NoMark bytes) :
    callPop (below ++ endmark :: bytes.reverse) = some (leValue bytes, below) := by
  cases bytes with
  | nil => exact absurd rfl hne
  | cons a as =>
    have ha : a ≠ endmark := h a (by simp)
    have := callPopLoop_mark as below.reverse (fun w hw => h w (by simp [hw])) a.toNat 1 (by omega)
    simp [callPop, callPopLoop, ha, this, leValue]

/-- `CallPop` where the top Word is zero: the double-zero form, one extra Word popped unseen. -/
theorem callPop_double_zero (below : List Word) (w : Word) : callPop (below ++ [w, endmark]) = some (0, below) := by
  simp [callPop, callPopLoop]

/-- `CallPop` of a single zero Word fails at the extra pop (D13). -/
theorem callPop_lone_zero : callPop [endmark] = none := by
  simp [callPop, callPopLoop]

/-- `CallPop` where no Word is zero runs out. -/
theorem callPop_no_mark (cs : List Word) (h : NoMark cs) : callPop cs = none := by
  simp [callPop, callPopLoop_none cs.reverse (fun w hw => h w (by simpa using hw))]

/-- Everything `CallPop` can do: fail on a stack with no zero Word or with a single zero Word; unwind the
double-zero form; or pop bytes down to an ENDMARK. -/
theorem callPop_cases (cs : List Word) :
    (callPop cs = none ∧ (NoMark cs ∨ cs = [endmark])) ∨
    (∃ below w, cs = below ++ [w, endmark] ∧ callPop cs = some (0, below)) ∨
    (∃ below bytes, cs = below ++ endmark :: bytes.reverse ∧ bytes ≠ [] ∧ NoMark bytes ∧
      callPop cs = some (leValue bytes, below)) := by
  rcases split_at_mark cs.reverse with h | ⟨as, rest, hs, h⟩
  · have h' : NoMark cs := fun w hw => h w (by simpa using hw)
    exact .inl ⟨callPop_no_mark cs h', .inl h'⟩
  · have hcs : cs = rest.reverse ++ endmark :: as.reverse := by
      have := congrArg List.reverse hs
      simpa using this
    cases as with
    | nil =>
      cases rest with
      | nil => exact .inl ⟨by simp [hcs, callPop_lone_zero], .inr (by simpa using hcs)⟩
      | cons w rest =>
        have h2 : cs = rest.reverse ++ [w, endmark] := by simpa using hcs
        exact .inr (.inl ⟨rest.reverse, w, h2, by rw [h2, callPop_double_zero]⟩)
    | cons a as =>
      exact .inr (.inr ⟨rest.reverse, a :: as, hcs, by simp, h, by rw [hcs, callPop_address _ _ (by simp) h]⟩)

/-- What `CallPop` leaves is a proper bottom part of what it was given. -/
theorem callPop_left {cs left : List Word} {t : Nat} (h : callPop cs = some (t, left)) :
    ∃ popped, cs = left ++ popped ∧ popped ≠ [] := by
  rcases callPop_cases cs with ⟨h0, _⟩ | ⟨below, w, hc, h1⟩ | ⟨below, bytes, hc, hb, _, h1⟩
  · simp [h0] at h
  · obtain ⟨-, rfl⟩ : 0 = t ∧ below = left := by simpa [h1] using h
    exact ⟨_, hc, by simp⟩
  · obtain ⟨-, rfl⟩ : leValue bytes = t ∧ below = left := by simpa [h1] using h
    exact ⟨_, hc, by simp⟩

end Sys2Proof.Machine
end

