-- ==== Sys2Proof/Laws/Decode.lean ====
section
/-! SUPPORT. What the decoder does with every opcode Word, so that no later proof unfolds its chain of comparisons. -/

namespace Sys2Proof.Machine

/-- Everything the decoder can do with an opcode Word (R52, R53, R54). -/
theorem decode_cases (cfg : Config) (op : Word) (ops : List Word) :
    (op = 0x0C#8 ∧ decode cfg (op :: ops) = .instr .nop 1) ∨
    (op = 0x01#8 ∧ decode cfg (op :: ops) = .instr .drop 1) ∨
    (op = 0x02#8 ∧ decode cfg (op :: ops) = .instr .pop 1) ∨
    (op = 0x03#8 ∧ decode cfg (op :: ops) = .instr .push 1) ∨
    (op = 0x04#8 ∧ decode cfg (op :: ops) = decodeValue .pushval ops) ∨
    (op = 0x05#8 ∧ decode cfg (op :: ops) = .instr .dup 1) ∨
    (op = 0x06#8 ∧ decode cfg (op :: ops) = .instr .swap 1) ∨
    (op = 0x07#8 ∧ decode cfg (op :: ops) = .instr .inc 1) ∨
    (op = 0x08#8 ∧ decode cfg (op :: ops) = .instr .dec 1) ∨
    (op = 0x09#8 ∧ decode cfg (op :: ops) = decodeValueTarget cfg .jmpif ops) ∨
    (op = 0x0A#8 ∧ decode cfg (op :: ops) = .instr .ret 1) ∨
    (op = 0x0B#8 ∧ decode cfg (op :: ops) = decodeTarget cfg .call ops) ∨
    (op = 0x10#8 ∧ decode cfg (op :: ops) = decodeTarget cfg .goto ops) ∨
    (op = 0x00#8 ∧ cfg.opc00IsNop = true ∧ decode cfg (op :: ops) = .instr .nop 1) ∨
    ((¬ (1 ≤ op.toNat ∧ op.toNat ≤ 12) ∧ op.toNat ≠ 16 ∧ ¬ (op = 0x00#8 ∧ cfg.opc00IsNop = true)) ∧
      decode cfg (op :: ops) = .unknown op) := by
  have table : ∀ op : Word, op = 0x0C#8 ∨ op = 0x01#8 ∨ op = 0x02#8 ∨ op = 0x03#8 ∨ op = 0x04#8 ∨ op = 0x05#8 ∨
      op = 0x06#8 ∨ op = 0x07#8 ∨ op = 0x08#8 ∨ op = 0x09#8 ∨ op = 0x0A#8 ∨ op = 0x0B#8 ∨ op = 0x10#8 ∨
      op = 0x00#8 ∨ 12 < op.toNat ∧ op.toNat ≠ 16 := by decide
  rcases table op with h | h | h | h | h | h | h | h | h | h | h | h | h | h | ⟨h1, h2⟩
  all_goals try (subst h; simp [decode])
  · have h3 : ∀ k, k ≤ 12 ∨ k = 16 → op ≠ BitVec.ofNat 8 k := by
      rintro k hk rfl
      simp at h1 h2
      omega
    have := h3 0; have := h3 1; have := h3 2; have := h3 3; have := h3 4; have := h3 5; have := h3 6
    have := h3 7; have := h3 8; have := h3 9; have := h3 10; have := h3 11; have := h3 12; have := h3 16
    simp_all [decode]

end Sys2Proof.Machine
end

