-- ==== Sys2Proof/Laws/State.lean ====
section
/-! SUPPORT. One lemma for each field and each named update of State, so that no later proof unfolds an update. -/

namespace Sys2Proof.Machine

/-! ### Success writes `result` only. -/

@[simp] theorem State.complete_mem (s : State) : (s.complete).mem = s.mem := rfl
@[simp] theorem State.complete_ip (s : State) : (s.complete).ip = s.ip := rfl
@[simp] theorem State.complete_ds (s : State) : (s.complete).ds = s.ds := rfl
@[simp] theorem State.complete_cs (s : State) : (s.complete).cs = s.cs := rfl
@[simp] theorem State.complete_cl (s : State) : (s.complete).cl = s.cl := rfl
@[simp] theorem State.complete_status (s : State) : (s.complete).status = s.status := rfl
@[simp] theorem State.complete_strict (s : State) : (s.complete).strict = s.strict := rfl
@[simp] theorem State.complete_cfg (s : State) : (s.complete).cfg = s.cfg := rfl
@[simp] theorem State.complete_run (s : State) : (s.complete).run = s.run := rfl
@[simp] theorem State.complete_result (s : State) : (s.complete).result = some .continued := rfl
@[simp] theorem State.complete_commands (s : State) : (s.complete).commands = s.commands := rfl
@[simp] theorem State.complete_halts (s : State) : (s.complete).halts = s.halts := rfl

/-! ### Termination writes `result` only. -/

@[simp] theorem State.terminate_mem (s : State) : (s.terminate).mem = s.mem := rfl
@[simp] theorem State.terminate_ip (s : State) : (s.terminate).ip = s.ip := rfl
@[simp] theorem State.terminate_ds (s : State) : (s.terminate).ds = s.ds := rfl
@[simp] theorem State.terminate_cs (s : State) : (s.terminate).cs = s.cs := rfl
@[simp] theorem State.terminate_cl (s : State) : (s.terminate).cl = s.cl := rfl
@[simp] theorem State.terminate_status (s : State) : (s.terminate).status = s.status := rfl
@[simp] theorem State.terminate_strict (s : State) : (s.terminate).strict = s.strict := rfl
@[simp] theorem State.terminate_cfg (s : State) : (s.terminate).cfg = s.cfg := rfl
@[simp] theorem State.terminate_run (s : State) : (s.terminate).run = s.run := rfl
@[simp] theorem State.terminate_result (s : State) : (s.terminate).result = some .terminated := rfl
@[simp] theorem State.terminate_commands (s : State) : (s.terminate).commands = s.commands := rfl
@[simp] theorem State.terminate_halts (s : State) : (s.terminate).halts = s.halts := rfl

/-! ### Taking a failure writes `status` and `result` only (R120). -/

@[simp] theorem State.fail_mem (k : FailKind) (s : State) : (s.fail k).mem = s.mem := rfl
@[simp] theorem State.fail_ip (k : FailKind) (s : State) : (s.fail k).ip = s.ip := rfl
@[simp] theorem State.fail_ds (k : FailKind) (s : State) : (s.fail k).ds = s.ds := rfl
@[simp] theorem State.fail_cs (k : FailKind) (s : State) : (s.fail k).cs = s.cs := rfl
@[simp] theorem State.fail_cl (k : FailKind) (s : State) : (s.fail k).cl = s.cl := rfl
@[simp] theorem State.fail_status (k : FailKind) (s : State) : (s.fail k).status = if s.strict then .error else s.status := rfl
@[simp] theorem State.fail_strict (k : FailKind) (s : State) : (s.fail k).strict = s.strict := rfl
@[simp] theorem State.fail_cfg (k : FailKind) (s : State) : (s.fail k).cfg = s.cfg := rfl
@[simp] theorem State.fail_run (k : FailKind) (s : State) : (s.fail k).run = s.run := rfl
@[simp] theorem State.fail_result (k : FailKind) (s : State) : (s.fail k).result = some (.failed k) := rfl
@[simp] theorem State.fail_commands (k : FailKind) (s : State) : (s.fail k).commands = s.commands := rfl
@[simp] theorem State.fail_halts (k : FailKind) (s : State) : (s.fail k).halts = s.halts := rfl

/-! ### A fetch fault writes `ip`, `status` and `result` only (R121). -/

@[simp] theorem State.fetchFault_mem (a : Nat) (s : State) : (s.fetchFault a).mem = s.mem := rfl
@[simp] theorem State.fetchFault_ip (a : Nat) (s : State) : (s.fetchFault a).ip = a := rfl
@[simp] theorem State.fetchFault_ds (a : Nat) (s : State) : (s.fetchFault a).ds = s.ds := rfl
@[simp] theorem State.fetchFault_cs (a : Nat) (s : State) : (s.fetchFault a).cs = s.cs := rfl
@[simp] theorem State.fetchFault_cl (a : Nat) (s : State) : (s.fetchFault a).cl = s.cl := rfl
@[simp] theorem State.fetchFault_status (a : Nat) (s : State) : (s.fetchFault a).status = .error := rfl
@[simp] theorem State.fetchFault_strict (a : Nat) (s : State) : (s.fetchFault a).strict = s.strict := rfl
@[simp] theorem State.fetchFault_cfg (a : Nat) (s : State) : (s.fetchFault a).cfg = s.cfg := rfl
@[simp] theorem State.fetchFault_run (a : Nat) (s : State) : (s.fetchFault a).run = s.run := rfl
@[simp] theorem State.fetchFault_result (a : Nat) (s : State) : (s.fetchFault a).result = some .faulted := rfl
@[simp] theorem State.fetchFault_commands (a : Nat) (s : State) : (s.fetchFault a).commands = s.commands := rfl
@[simp] theorem State.fetchFault_halts (a : Nat) (s : State) : (s.fetchFault a).halts = s.halts := rfl

/-! ### `halt` writes `status` only (R108). -/

@[simp] theorem State.halt_mem (s : State) : (s.halt).mem = s.mem := rfl
@[simp] theorem State.halt_ip (s : State) : (s.halt).ip = s.ip := rfl
@[simp] theorem State.halt_ds (s : State) : (s.halt).ds = s.ds := rfl
@[simp] theorem State.halt_cs (s : State) : (s.halt).cs = s.cs := rfl
@[simp] theorem State.halt_cl (s : State) : (s.halt).cl = s.cl := rfl
@[simp] theorem State.halt_status (s : State) : (s.halt).status = .user := rfl
@[simp] theorem State.halt_strict (s : State) : (s.halt).strict = s.strict := rfl
@[simp] theorem State.halt_cfg (s : State) : (s.halt).cfg = s.cfg := rfl
@[simp] theorem State.halt_run (s : State) : (s.halt).run = s.run := rfl
@[simp] theorem State.halt_result (s : State) : (s.halt).result = s.result := rfl
@[simp] theorem State.halt_commands (s : State) : (s.halt).commands = s.commands := rfl
@[simp] theorem State.halt_halts (s : State) : (s.halt).halts = s.halts := rfl

/-! ### After a cycle of a run only `run` is written (R106). -/

@[simp] theorem afterCycle_mem (r : RunCtl) (s : State) : (afterCycle r s).mem = s.mem := rfl
@[simp] theorem afterCycle_ip (r : RunCtl) (s : State) : (afterCycle r s).ip = s.ip := rfl
@[simp] theorem afterCycle_ds (r : RunCtl) (s : State) : (afterCycle r s).ds = s.ds := rfl
@[simp] theorem afterCycle_cs (r : RunCtl) (s : State) : (afterCycle r s).cs = s.cs := rfl
@[simp] theorem afterCycle_cl (r : RunCtl) (s : State) : (afterCycle r s).cl = s.cl := rfl
@[simp] theorem afterCycle_status (r : RunCtl) (s : State) : (afterCycle r s).status = s.status := rfl
@[simp] theorem afterCycle_strict (r : RunCtl) (s : State) : (afterCycle r s).strict = s.strict := rfl
@[simp] theorem afterCycle_cfg (r : RunCtl) (s : State) : (afterCycle r s).cfg = s.cfg := rfl
@[simp] theorem afterCycle_run (r : RunCtl) (s : State) : (afterCycle r s).run = (if s.result = some .terminated then none else some { r with steps := r.steps + 1 }) := rfl
@[simp] theorem afterCycle_result (r : RunCtl) (s : State) : (afterCycle r s).result = s.result := rfl
@[simp] theorem afterCycle_commands (r : RunCtl) (s : State) : (afterCycle r s).commands = s.commands := rfl
@[simp] theorem afterCycle_halts (r : RunCtl) (s : State) : (afterCycle r s).halts = s.halts := rfl

/-! ### A boundary takes one input of the host and writes `status` where it is a halt (R108). -/

@[simp] theorem takeHalt_mem (s : State) : (takeHalt s).mem = s.mem := by
  unfold takeHalt; split <;> rfl
@[simp] theorem takeHalt_ip (s : State) : (takeHalt s).ip = s.ip := by
  unfold takeHalt; split <;> rfl
@[simp] theorem takeHalt_ds (s : State) : (takeHalt s).ds = s.ds := by
  unfold takeHalt; split <;> rfl
@[simp] theorem takeHalt_cs (s : State) : (takeHalt s).cs = s.cs := by
  unfold takeHalt; split <;> rfl
@[simp] theorem takeHalt_cl (s : State) : (takeHalt s).cl = s.cl := by
  unfold takeHalt; split <;> rfl
@[simp] theorem takeHalt_status (s : State) : (takeHalt s).status = (if s.halts.head? = some true then .user else s.status) := by
  unfold takeHalt; split <;> rfl
@[simp] theorem takeHalt_strict (s : State) : (takeHalt s).strict = s.strict := by
  unfold takeHalt; split <;> rfl
@[simp] theorem takeHalt_cfg (s : State) : (takeHalt s).cfg = s.cfg := by
  unfold takeHalt; split <;> rfl
@[simp] theorem takeHalt_run (s : State) : (takeHalt s).run = s.run := by
  unfold takeHalt; split <;> rfl
@[simp] theorem takeHalt_result (s : State) : (takeHalt s).result = s.result := by
  unfold takeHalt; split <;> rfl
@[simp] theorem takeHalt_commands (s : State) : (takeHalt s).commands = s.commands := by
  unfold takeHalt; split <;> rfl
@[simp] theorem takeHalt_halts (s : State) : (takeHalt s).halts = s.halts.tail := by
  unfold takeHalt; split <;> rfl

end Sys2Proof.Machine
end

