-- ==== Sys2Proof/Laws/Ops.lean ====
section
/-! SUPPORT. One lemma for each shared operation that says all it can do: instruction memory, the stacks, the
capacities, the implicit operands, the push on the data stack. -/

namespace Sys2Proof.Machine

/-! ### Instruction memory: every operation keeps the canonical form -/

@[simp] theorem Memory.ofWords_length (ws : List Word) : (Memory.ofWords ws).length = ws.length := by
  simp [Memory.ofWords]

/-- `loadprogram`'s memory is canonical; it is the only operation that makes one (R33, R102). -/
@[simp] theorem Memory.ofWords_wf (ws : List Word) : Memory.wf (Memory.ofWords ws) = true := by
  simp [Memory.wf, Memory.ofWords, List.map_fst_zip]

theorem Memory.reset_wf : Memory.wf State.reset.mem = true := by decide

@[simp] theorem Memory.words_ofWords (ws : List Word) : Memory.words (Memory.ofWords ws) = ws := by
  simp [Memory.words, Memory.ofWords, List.map_snd_zip]

/-- A canonical memory is the memory of its Words. -/
theorem Memory.eq_ofWords {m : List Host.Cell} (h : Memory.wf m = true) : m = Memory.ofWords (Memory.words m) := by
  have h1 : m.map Prod.fst = List.range m.length := by simpa [Memory.wf] using h
  have h2 := List.zip_of_prod h1 (rfl : m.map Prod.snd = m.map Prod.snd)
  simpa [Memory.ofWords, Memory.words] using h2

theorem Memory.lookup_zip_range' (ws : List Word) (k a : Nat) :
    ((List.range' k ws.length).zip ws).lookup (k + a) = ws[a]? := by
  induction ws generalizing k a with
  | nil => simp
  | cons w ws ih =>
    rw [List.length_cons, List.range'_succ, List.zip_cons_cons, List.lookup_cons]
    cases a with
    | zero => simp
    | succ a =>
      have hne : (k + (a + 1) == k) = false := by simp
      have := ih (k + 1) a
      rw [show k + 1 + a = k + (a + 1) by ring] at this
      rw [hne]
      simpa using this

/-- Byte `k` of the loaded program is at index `k`, and nothing is beyond its end (R38, R39). -/
@[simp] theorem Memory.read_ofWords (ws : List Word) (a : Nat) : Memory.read (Memory.ofWords ws) a = ws[a]? := by
  have := Memory.lookup_zip_range' ws 0 a
  simpa [Memory.read, Memory.ofWords, List.range_eq_range'] using this

theorem Memory.readFrom_ofWords (ws : List Word) (fuel a : Nat) (h : ws.length ≤ a + fuel) :
    Memory.readFrom (Memory.ofWords ws) fuel a = ws.drop a := by
  induction fuel generalizing a with
  | zero => simp [Memory.readFrom]; omega
  | succ fuel ih =>
    simp only [Memory.readFrom, Memory.read_ofWords]
    by_cases ha : a < ws.length
    · rw [List.getElem?_eq_getElem ha, ih (a + 1) (by omega)]
      exact List.getElem_cons_drop ha
    · rw [List.getElem?_eq_none (by omega)]
      simp; omega

/-- In a canonical memory fetch reads the Words from the index on. -/
@[simp] theorem Memory.wordsFrom_ofWords (ws : List Word) (a : Nat) :
    Memory.wordsFrom (Memory.ofWords ws) a = ws.drop a := by
  simpa [Memory.wordsFrom] using Memory.readFrom_ofWords ws ws.length a (by omega)

/-! ### Stacks -/

@[simp] theorem Stack.pop?_nil {α : Type} : Stack.pop? ([] : List α) = none := rfl

@[simp] theorem Stack.pop?_push {α : Type} (s : List α) (v : α) : Stack.pop? (s ++ [v]) = some (v, s) := by
  simp [Stack.pop?]

theorem Stack.pop?_eq_some {α : Type} {s r : List α} {v : α} : Stack.pop? s = some (v, r) ↔ s = r ++ [v] := by
  constructor
  · intro h
    rcases List.eq_nil_or_concat s with rfl | ⟨l, x, rfl⟩
    · simp at h
    · simp only [List.concat_eq_append, Stack.pop?_push, Option.some.injEq, Prod.mk.injEq] at h
      simp [h.1, h.2]
  · rintro rfl; simp

theorem Stack.pop?_eq_none {α : Type} {s : List α} : Stack.pop? s = none ↔ s = [] := by
  rcases List.eq_nil_or_concat s with rfl | ⟨l, x, rfl⟩ <;> simp

@[simp] theorem Stack.top?_nil {α : Type} : Stack.top? ([] : List α) = none := rfl

@[simp] theorem Stack.top?_push {α : Type} (s : List α) (v : α) : Stack.top? (s ++ [v]) = some v := by
  simp [Stack.top?]

theorem Stack.top?_eq_some {α : Type} {s : List α} {v : α} : Stack.top? s = some v ↔ ∃ r, s = r ++ [v] := by
  rcases List.eq_nil_or_concat s with rfl | ⟨l, x, rfl⟩
  · simp
  · simp only [List.concat_eq_append, Stack.top?_push, Option.some.injEq]
    constructor
    · rintro rfl; exact ⟨l, rfl⟩
    · rintro ⟨r, h⟩; exact (List.append_inj' h rfl).2 |> fun h => by simpa using h

theorem Stack.top?_eq_none {α : Type} {s : List α} : Stack.top? s = none ↔ s = [] := by
  simp [Stack.top?]

@[simp] theorem Stack.push_length {α : Type} (s : List α) (v : α) : (Stack.push s v).length = s.length + 1 := by
  simp [Stack.push]

/-! ### Capacities -/

@[simp] theorem withinCap_none (n : Nat) : withinCap none n = true := rfl

theorem withinCap_mono {cap : Option Nat} {n m : Nat} (h : withinCap cap m = true) (hn : n ≤ m) :
    withinCap cap n = true := by
  cases cap with
  | none => rfl
  | some c => simp only [withinCap, decide_eq_true_eq] at *; omega

@[simp] theorem addressFits_unbounded {cfg : Config} (h : cfg.aw = none) (a : Nat) : addressFits cfg a = true := by
  simp [addressFits, h]

/-- The sentinel boundary fits every width. -/
@[simp] theorem addressFits_zero (cfg : Config) : addressFits cfg 0 = true := by
  unfold addressFits
  split <;> simp

@[simp] theorem ipFits_unbounded {cfg : Config} (h : cfg.aw = none) (ip k : Nat) : ipFits cfg ip k = true := by
  simp [ipFits, h]

/-! ### Implicit operands -/

/-- The top of the data stack: there is none and the instruction fails with F1; or it is popped. -/
theorem withTop_cases (s : State) (k : Word → State → Result) :
    (s.ds = [] ∧ withTop s k = .next (s.fail .stackUnderflow)) ∨
      ∃ xs v, s.ds = xs ++ [v] ∧ withTop s k = k v { s with ds := xs } := by
  rcases List.eq_nil_or_concat s.ds with h | ⟨xs, v, h⟩
  · exact .inl ⟨h, by simp [withTop, h]⟩
  · rw [List.concat_eq_append] at h
    exact .inr ⟨xs, v, h, by simp [withTop, h]⟩

/-- The top two of the data stack: there are fewer and the instruction fails with F1; or they are popped. -/
theorem withTopTwo_cases (s : State) (k : Word → Word → State → Result) :
    (s.ds.length < 2 ∧ withTopTwo s k = .next (s.fail .stackUnderflow)) ∨
      ∃ xs a b, s.ds = xs ++ [a, b] ∧ withTopTwo s k = k b a { s with ds := xs } := by
  rcases List.eq_nil_or_concat s.ds with h | ⟨ys, b, h⟩
  · exact .inl ⟨by simp [h], by simp [withTopTwo, h]⟩
  · rw [List.concat_eq_append] at h
    rcases List.eq_nil_or_concat ys with rfl | ⟨xs, a, rfl⟩
    · exact .inl ⟨by simp [h], by simp only [withTopTwo, h, Stack.pop?_push, Stack.pop?_nil]⟩
    · rw [List.concat_eq_append] at h
      exact .inr ⟨xs, a, b, by simp [h], by simp only [withTopTwo, h, Stack.pop?_push]⟩

/-- The top of the call stack within the frame: the instruction fails with F2 where there is no boundary or nothing
above it; or it is popped. -/
theorem withFrameTop_cases (s : State) (k : Word → State → Result) :
    ((s.cl = [] ∨ ∃ ls b, s.cl = ls ++ [b] ∧ s.cs.length ≤ b) ∧
        withFrameTop s k = .next (s.fail .frameViolation)) ∨
      ∃ ls b ys v, s.cl = ls ++ [b] ∧ s.cs = ys ++ [v] ∧ b < s.cs.length ∧
        withFrameTop s k = k v { s with cs := ys } := by
  rcases List.eq_nil_or_concat s.cl with h | ⟨ls, b, h⟩
  · exact .inl ⟨.inl h, by simp [withFrameTop, h]⟩
  · rw [List.concat_eq_append] at h
    by_cases hb : s.cs.length ≤ b
    · exact .inl ⟨.inr ⟨ls, b, h, hb⟩, by simp [withFrameTop, h, hb]⟩
    · rcases List.eq_nil_or_concat s.cs with hc | ⟨ys, v, hc⟩
      · simp [hc] at hb
      · rw [List.concat_eq_append] at hc
        refine .inr ⟨ls, b, ys, v, h, hc, by omega, ?_⟩
        simp only [withFrameTop, h, Stack.top?_push, hb, if_false]
        simp only [hc, Stack.pop?_push]

/-- A push on the data stack: it fits and is done; or it is refused. -/
theorem pushData_cases (v : Word) (s : State) :
    (withinCap s.cfg.dsCap (s.ds.length + 1) = true ∧
        pushData v s = .next { s with ds := s.ds ++ [v], result := some .continued }) ∨
      (withinCap s.cfg.dsCap (s.ds.length + 1) = false ∧ pushData v s = .refused .dataStackCapacity) := by
  cases h : withinCap s.cfg.dsCap (s.ds.length + 1)
  · exact .inr ⟨rfl, by simp [pushData, h]⟩
  · exact .inl ⟨rfl, by simp [pushData, h, Stack.push, State.complete]⟩

end Sys2Proof.Machine
end

