-- ==== Sys2Proof/Laws/Exec.lean ====
section
/-! SUPPORT. What the meanings with several outcomes can do, once for each, and what an execute, a cycle and a step can
do. -/

namespace Sys2Proof.Machine

theorem callBytes_length_ge (a : Nat) : 2 ≤ (callBytes a).length := by
  unfold callBytes
  split
  · simp
  · have := nbytes_pos a
    simp; omega

theorem callPush_length (a : Nat) (cs : List Word) :
    (callPush a cs).length = cs.length + (callBytes a).length := by simp [callPush]

/-- The Words of a return address: ENDMARK deepest, its bytes above it (R93); in the double-zero form too. -/
theorem callBytes_eq (a : Nat) : callBytes a = endmark :: (leBytes a).reverse := by
  unfold callBytes
  split
  · next h => subst h; decide
  · rfl

/-- Everything PUSH can do: fail with F2; move a Word within the frame; or be refused by a full data stack. -/
theorem execPush_cases (s : State) :
    ((s.cl = [] ∨ ∃ ls b, s.cl = ls ++ [b] ∧ s.cs.length ≤ b) ∧
        execPush s = .next (s.fail .frameViolation)) ∨
      ∃ ls b ys v, s.cl = ls ++ [b] ∧ s.cs = ys ++ [v] ∧ b < s.cs.length ∧
        ((withinCap s.cfg.dsCap (s.ds.length + 1) = true ∧
            execPush s = .next { s with cs := ys, ds := s.ds ++ [v], result := some .continued }) ∨
          (withinCap s.cfg.dsCap (s.ds.length + 1) = false ∧ execPush s = .refused .dataStackCapacity)) := by
  rcases withFrameTop_cases s (fun v s' => pushData v s') with h | ⟨ls, b, ys, v, h1, h2, h3, h4⟩
  · exact .inl h
  · refine .inr ⟨ls, b, ys, v, h1, h2, h3, ?_⟩
    rcases pushData_cases v { s with cs := ys } with ⟨hc, h⟩ | ⟨hc, h⟩
    · exact .inl ⟨hc, h4.trans h⟩
    · exact .inr ⟨hc, h4.trans h⟩

/-- Everything CALL can do: push the frame and jump; or be refused by a full stack or by a boundary too wide. -/
theorem execCall_cases (target : Nat) (s : State) :
    (withinCap s.cfg.csCap (callPush s.ip s.cs).length = true ∧
        withinCap s.cfg.clCap (s.cl.length + 1) = true ∧
        addressFits s.cfg (callPush s.ip s.cs).length = true ∧
        execCall target s = .next { s with
          cs := callPush s.ip s.cs, cl := s.cl ++ [(callPush s.ip s.cs).length], ip := target
          result := some .continued }) ∨
      (withinCap s.cfg.csCap (callPush s.ip s.cs).length = false ∧
        execCall target s = .refused .callStackCapacity) ∨
      (withinCap s.cfg.csCap (callPush s.ip s.cs).length = true ∧
        withinCap s.cfg.clCap (s.cl.length + 1) = false ∧
        execCall target s = .refused .callLevelCapacity) ∨
      (withinCap s.cfg.csCap (callPush s.ip s.cs).length = true ∧
        withinCap s.cfg.clCap (s.cl.length + 1) = true ∧
        addressFits s.cfg (callPush s.ip s.cs).length = false ∧
        execCall target s = .refused .callLevelWidth) := by
  cases h1 : withinCap s.cfg.csCap (callPush s.ip s.cs).length
  · exact .inr (.inl ⟨rfl, by simp [execCall, h1]⟩)
  · cases h2 : withinCap s.cfg.clCap (s.cl.length + 1)
    · exact .inr (.inr (.inl ⟨rfl, rfl, by simp [execCall, h1, h2]⟩))
    · cases h3 : addressFits s.cfg (callPush s.ip s.cs).length
      · exact .inr (.inr (.inr ⟨rfl, rfl, rfl, by simp [execCall, h1, h2, h3]⟩))
      · exact .inl ⟨rfl, rfl, rfl, by simp [execCall, h1, h2, h3, Stack.push, State.complete]⟩

/-- Everything RET can do: fail with F2 where the boundary does not match; terminate; fail with F4; or return. -/
theorem execRet_cases (s : State) :
    ((s.cl = [] ∨ ∃ ls b, s.cl = ls ++ [b] ∧ s.cs.length ≠ b) ∧
        execRet s = .next (s.fail .frameViolation)) ∨
      ∃ ls, s.cl = ls ++ [s.cs.length] ∧
        ((s.cs = [] ∧ execRet s = .next { s with cl := ls, result := some .terminated }) ∨
          (s.cs ≠ [] ∧ callPop s.cs = none ∧
            execRet s = .next ({ s with cl := ls, cs := [] }.fail .malformedAddress)) ∨
          ∃ t left, s.cs ≠ [] ∧ callPop s.cs = some (t, left) ∧
            execRet s = .next { s with cl := ls, cs := left, ip := t, result := some .continued }) := by
  rcases List.eq_nil_or_concat s.cl with h | ⟨ls, b, h⟩
  · exact .inl ⟨.inl h, by simp [execRet, h]⟩
  · rw [List.concat_eq_append] at h
    by_cases hb : s.cs.length = b
    · subst hb
      refine .inr ⟨ls, h, ?_⟩
      by_cases hc : s.cs = []
      · left
        rw [hc] at h
        exact ⟨hc, by simp [execRet, h, hc, State.terminate]⟩
      · right
        have hl : ¬ s.cs.length = 0 := by simpa using hc
        cases hp : callPop s.cs with
        | none => exact .inl ⟨hc, rfl, by simp [execRet, h, hl, hp]⟩
        | some p =>
          obtain ⟨t, left⟩ := p
          exact .inr ⟨t, left, hc, rfl, by simp [execRet, h, hl, hp, State.complete]⟩
    · exact .inl ⟨.inr ⟨ls, b, h, hb⟩, by simp [execRet, h, hb]⟩

/-- Everything a cycle can do: fault at fetch, fail on an unknown opcode, or execute; or be refused where `ip` would
reach `2^AW`. -/
theorem cycle_cases (s : State) :
    (∃ k, fetch s = .cut k ∧ ipFits s.cfg s.ip k = true ∧ cycle s = .next (s.fetchFault (s.ip + k))) ∨
    (∃ op, fetch s = .unknown op ∧ ipFits s.cfg s.ip 1 = true ∧
      cycle s = .next ({ s with ip := s.ip + 1 }.fail .invalidOpcode)) ∨
    (∃ i k, fetch s = .instr i k ∧ ipFits s.cfg s.ip k = true ∧ cycle s = exec i { s with ip := s.ip + k }) ∨
    (s.cfg.aw ≠ none ∧ cycle s = .refused .addressWidth) := by
  have haw : ∀ k, ipFits s.cfg s.ip k = false → s.cfg.aw ≠ none := by
    intro k hk h
    simp [h] at hk
  cases hf : fetch s with
  | cut k =>
    cases hk : ipFits s.cfg s.ip k
    · exact .inr (.inr (.inr ⟨haw k hk, by simp [cycle, hf, hk]⟩))
    · exact .inl ⟨k, rfl, hk, by simp [cycle, hf, hk]⟩
  | unknown op =>
    cases hk : ipFits s.cfg s.ip 1
    · exact .inr (.inr (.inr ⟨haw 1 hk, by simp [cycle, hf, hk]⟩))
    · exact .inr (.inl ⟨op, rfl, rfl, by simp [cycle, hf, hk, execInvalid]⟩)
  | instr i k =>
    cases hk : ipFits s.cfg s.ip k
    · exact .inr (.inr (.inr ⟨haw k hk, by simp [cycle, hf, hk]⟩))
    · exact .inr (.inr (.inl ⟨i, k, rfl, hk, by simp [cycle, hf, hk]⟩))

/-- Everything a step of a run can do: return on a terminal status; return on a spent budget; or perform a cycle and what
the loop does after it. -/
theorem step_run_cases {s : State} {r : RunCtl} (h : s.run = some r) :
    ((takeHalt s).status ≠ .ok ∧ step s = .next { takeHalt s with run := none }) ∨
    ((takeHalt s).status = .ok ∧ r.spent = true ∧
      step s = .next { takeHalt s with status := .maxsteps, run := none }) ∨
    ((takeHalt s).status = .ok ∧ r.spent = false ∧ step s = runCycle r (takeHalt s)) := by
  have hstep : step s = boundary r s := by simp only [step, transition, h]
  rw [hstep]
  by_cases h1 : (takeHalt s).status = .ok
  · cases h2 : r.spent
    · exact .inr (.inr ⟨h1, rfl, by simp only [boundary, h1, h2]; simp⟩)
    · exact .inr (.inl ⟨h1, rfl, by simp only [boundary, h1, h2]; simp⟩)
  · exact .inl ⟨h1, by simp only [boundary]; rw [if_pos h1]⟩

/-- A step of an idle machine accepts the host's next operation, or does nothing. -/
theorem step_idle {s : State} (h : s.run = none) :
    (s.commands = [] ∧ step s = .next s) ∨
      ∃ c rest, s.commands = c :: rest ∧ step s = issue c { s with commands := rest } := by
  cases hc : s.commands with
  | nil => exact .inl ⟨rfl, by simp only [step, transition, h, hc]⟩
  | cons c rest => exact .inr ⟨c, rest, rfl, by simp only [step, transition, h, hc]⟩

/-- What the loop does after a cycle that takes a next state. -/
theorem runCycle_next {r : RunCtl} {s t : State} (h : runCycle r s = .next t) :
    ∃ u, cycle s = .next u ∧ t = afterCycle r u := by
  unfold runCycle at h
  cases hc : cycle s with
  | next u => rw [hc] at h; exact ⟨u, rfl, by simpa using h.symm⟩
  | fault f => rw [hc] at h; simp at h
  | refused x => rw [hc] at h; simp at h

/-- With no halt pending, a boundary takes nothing but its entry of the host's list. -/
theorem takeHalt_of_noHalt {s : State} (h : NoHaltNow s) : takeHalt s = { s with halts := s.halts.tail } := by
  unfold takeHalt
  rw [if_neg h]

/-- A step of an idle machine with an operation of the host pending is that operation. -/
theorem step_issues {s : State} {c : Command} {rest : List Command} (h : s.run = none) (hc : s.commands = c :: rest) :
    step s = issue c { s with commands := rest } := by
  simp only [step, transition, h, hc]

/-- In a run with `status = ok`, no halt pending and budget left, a step is the cycle and what the loop does after it. -/
theorem step_runs_cycle {s : State} {r : RunCtl} (h : s.run = some r) (hs : s.status = .ok) (hn : NoHaltNow s)
    (hr : r.spent = false) : step s = runCycle r { s with halts := s.halts.tail } := by
  have ht := takeHalt_of_noHalt hn
  rcases step_run_cases h with ⟨h1, _⟩ | ⟨_, h2, _⟩ | ⟨_, _, h3⟩
  · exact absurd (by rw [ht]; exact hs) h1
  · simp [hr] at h2
  · rw [h3, ht]

/-! ### Runs of the host's interface -/

/-- A run of `k + 1` steps whose first takes a next state goes on from there. -/
theorem core_run_next {s t : State} (h : step s = .next t) (k : Nat) :
    Host.Core.run Sys2Proof.core (k + 1) s = Host.Core.run Sys2Proof.core k t := by
  have h' : Sys2Proof.core.step s = .next t := h
  simp [Host.Core.run, h']

/-- A run of `k + 1` steps that ends in a state has taken a first step. -/
theorem core_run_succ {s t : State} {k : Nat} (h : Host.Core.run Sys2Proof.core (k + 1) s = .next t) :
    ∃ u, step s = .next u ∧ Host.Core.run Sys2Proof.core k u = .next t := by
  cases hs : step s with
  | next u => exact ⟨u, rfl, by rwa [core_run_next hs] at h⟩
  | fault f =>
    have h' : Sys2Proof.core.step s = .fault f := hs
    simp [Host.Core.run, h'] at h
  | refused x =>
    have h' : Sys2Proof.core.step s = .refused x := hs
    simp [Host.Core.run, h'] at h

/-- What every step keeps, every run keeps. -/
theorem core_run_keeps {P : State → Prop} (keeps : ∀ s t, P s → step s = .next t → P t) {k : Nat} {s t : State}
    (hs : P s) (h : Host.Core.run Sys2Proof.core k s = .next t) : P t := by
  induction k generalizing s with
  | zero => cases h; exact hs
  | succ k ih =>
    obtain ⟨u, h1, h2⟩ := core_run_succ h
    exact ih (keeps s u hs h1) h2

end Sys2Proof.Machine
end

