-- ==== Sys2Proof/Laws/PerInstr.lean ====
section
/-! SUPPORT. Statements made for every instruction as syntax, one lemma for each constructor of Instr. -/

namespace Sys2Proof.Laws

/-- The length in Words that R45 to R49 give each format, under the default reading of the address field: 1 for
format N, 2 for V, `1 + L` for T and `2 + L` for VT, where the address field takes `L = nbytes + 1` Words
(R91). -/
def formatLength : Instr → Nat
  | .nop => 1
  | .drop => 1
  | .pop => 1
  | .push => 1
  | .pushval _ => 2
  | .dup => 1
  | .swap => 1
  | .inc => 1
  | .dec => 1
  | .jmpif _ target => 2 + (Machine.nbytes target + 1)
  | .ret => 1
  | .call target => 1 + (Machine.nbytes target + 1)
  | .goto target => 1 + (Machine.nbytes target + 1)

/-- The encoding of an instruction has the length of its format. -/
def EncodedLength.Statement (i : Instr) : Prop :=
  ∀ cfg : Config, cfg.streamFirstByteTerminates = false → (Machine.encode cfg i).length = formatLength i

theorem addressField_length {cfg : Config} (h : cfg.streamFirstByteTerminates = false) (a : Nat) :
    (Machine.addressField cfg a).length = Machine.nbytes a + 1 := by
  simp [Machine.addressField, h]

theorem EncodedLength.nop : EncodedLength.Statement .nop := fun _ _ => rfl
theorem EncodedLength.drop : EncodedLength.Statement .drop := fun _ _ => rfl
theorem EncodedLength.pop : EncodedLength.Statement .pop := fun _ _ => rfl
theorem EncodedLength.push : EncodedLength.Statement .push := fun _ _ => rfl
theorem EncodedLength.pushval (v : Word) : EncodedLength.Statement (.pushval v) := fun _ _ => rfl
theorem EncodedLength.dup : EncodedLength.Statement .dup := fun _ _ => rfl
theorem EncodedLength.swap : EncodedLength.Statement .swap := fun _ _ => rfl
theorem EncodedLength.inc : EncodedLength.Statement .inc := fun _ _ => rfl
theorem EncodedLength.dec : EncodedLength.Statement .dec := fun _ _ => rfl
theorem EncodedLength.jmpif (v : Word) (target : Nat) : EncodedLength.Statement (.jmpif v target) := by
  intro cfg h
  simp only [Machine.encode, formatLength, List.length_cons, addressField_length h]
  omega
theorem EncodedLength.ret : EncodedLength.Statement .ret := fun _ _ => rfl
theorem EncodedLength.call (target : Nat) : EncodedLength.Statement (.call target) := by
  intro cfg h
  simp only [Machine.encode, formatLength, List.length_cons, addressField_length h]
  omega
theorem EncodedLength.goto (target : Nat) : EncodedLength.Statement (.goto target) := by
  intro cfg h
  simp only [Machine.encode, formatLength, List.length_cons, addressField_length h]
  omega

end Sys2Proof.Laws
end

