-- ==== Sys2Proof/Tests/Slice0.lean ====
section
/-! SUPPORT. The model's own tests. Expected results are the vectors of 95_test_vectors.md (named by section and row), or
words written out from 30_encoding.md R46 to R52. After them, for each statement with hypotheses, states and operands
that meet the hypotheses, at boundary values. -/

namespace Sys2Proof.Tests

open Sys2Proof Sys2Proof.Machine

/-! ### Helpers -/

/-- A machine after reset, with a program and stacks. -/
def machine (mem ds cs : List Word) (cl : List Nat) : State :=
  { State.reset with mem := Memory.ofWords mem, ds := ds, cs := cs, cl := cl }

/-- The parameters with capacities for the data stack, the call stack and the call-level stack. -/
def sized (ds cs cl : Nat) : Config :=
  { Config.standard with dsCap := some ds, csCap := some cs, clCap := some cl }

/-- The parameters with the other reading of a stream address (D6). -/
def firstByteEnds : Config := { Config.standard with streamFirstByteTerminates := true }

/-- A machine in a run. -/
def running (maxsteps : Option Nat) (steps : Nat) (s : State) : State :=
  { s with run := some { maxsteps := maxsteps, steps := steps } }

/-- The next state, if there is one. -/
def nextOf : Result → Option State
  | .next t => some t
  | _ => none

/-- The columns of the vector tables: `ip`, `ds`, `cs`, `cl`, status, cycle result. -/
structure Row where
  ip : Nat
  ds : List Word
  cs : List Word
  cl : List Nat
  status : Status
  result : Option CycleResult
deriving DecidableEq

/-- The end columns of one step. -/
def endRow (s : State) : Option Row :=
  (nextOf (step s)).map fun t => ⟨t.ip, t.ds, t.cs, t.cl, t.status, t.result⟩

/-- One cycle by the host's `step`, from a row's start columns. -/
def oneCycle (mem : List Word) (ip : Nat) (ds cs : List Word) (cl : List Nat) (strict : Bool) : Option Row :=
  endRow { machine mem ds cs cl with ip := ip, commands := [.step strict] }

/-! ### WellFormed: ill-formed terms are refused, one for each check -/

theorem test_wf_goto_zero_byte : Instr.wf Config.standard (.goto 0x10000) = false := by decide
theorem test_wf_call_zero_byte : Instr.wf Config.standard (.call 0x10000) = false := by decide
theorem test_wf_jmpif_zero_byte : Instr.wf Config.standard (.jmpif 3#8 0x120034) = false := by decide
theorem test_wf_first_byte_zero : Instr.wf firstByteEnds (.goto 256) = false := by decide
theorem test_wf_accepts : Instr.wf Config.standard (.goto 256) = true ∧ Instr.wf firstByteEnds (.goto 0) = true ∧
    Instr.wf Config.standard (.jmpif 0#8 0x123456) = true := by decide

/-! ### Decoding: each constructor from Words written out bit by bit -/

theorem test_decode_stack_ops :
    decode Config.standard [0b00001100#8] = .instr .nop 1 ∧
    decode Config.standard [0b00000001#8] = .instr .drop 1 ∧
    decode Config.standard [0b00000010#8] = .instr .pop 1 ∧
    decode Config.standard [0b00000011#8] = .instr .push 1 ∧
    decode Config.standard [0b00000100#8, 0b00101010#8] = .instr (.pushval 42#8) 2 ∧
    decode Config.standard [0b00000101#8] = .instr .dup 1 ∧
    decode Config.standard [0b00000110#8] = .instr .swap 1 := by decide

theorem test_decode_arith :
    decode Config.standard [0b00000111#8] = .instr .inc 1 ∧
    decode Config.standard [0b00001000#8] = .instr .dec 1 := by decide

theorem test_decode_control :
    decode Config.standard [0b00001001#8, 0b00000011#8, 0b00110100#8, 0b00010010#8, 0b00000000#8] =
      .instr (.jmpif 3#8 0x1234) 5 ∧
    decode Config.standard [0b00001010#8] = .instr .ret 1 ∧
    decode Config.standard [0b00001011#8, 0b00000110#8, 0b00000000#8] = .instr (.call 6) 3 ∧
    decode Config.standard [0b00010000#8, 0b01010110#8, 0b00110100#8, 0b00010010#8, 0b00000000#8] =
      .instr (.goto 0x123456) 5 := by decide

/-- Section 1, S1 and C2: the two readings of a first address Word 0x00. -/
theorem test_decode_first_zero :
    decode Config.standard [0x10#8, 0x00#8, 0x00#8] = .instr (.goto 0) 3 ∧
    decode firstByteEnds [0x10#8, 0x00#8, 0x00#8] = .instr (.goto 0) 2 := by decide

/-- R53, R54, R55: neighbours of the 13 values, and the Word 0x00, are unknown. -/
theorem test_decode_unknown :
    decode Config.standard [0x00#8] = .unknown 0x00#8 ∧ decode Config.standard [0x0D#8, 0x00#8] = .unknown 0x0D#8 ∧
    decode Config.standard [0x0F#8] = .unknown 0x0F#8 ∧ decode Config.standard [0x11#8] = .unknown 0x11#8 ∧
    decode Config.standard [0x84#8, 0x01#8] = .unknown 0x84#8 ∧ decode Config.standard [0xFF#8] = .unknown 0xFF#8 := by
  decide

theorem test_encode :
    encode Config.standard (.jmpif 3#8 0x1234) = [0x09#8, 0x03#8, 0x34#8, 0x12#8, 0x00#8] ∧
    encode Config.standard (.goto 256) = [0x10#8, 0x00#8, 0x01#8, 0x00#8] ∧
    encode Config.standard (.call 0) = [0x0B#8, 0x00#8, 0x00#8] ∧
    encode firstByteEnds (.call 0) = [0x0B#8, 0x00#8] := by decide

/-- The table's words, operand Words of zeros. -/
theorem test_decode_table_word :
    decodeTableWord 8 0x0C = some .nop ∧ decodeTableWord 16 0x2A04 = some (.pushval 0x2A#8) ∧
    decodeTableWord 8 0x0B = some (.call 0) ∧ decodeTableWord 24 0x000510 = some (.goto 5) ∧
    decodeTableWord 16 0x0309 = some (.jmpif 3#8 0) ∧ decodeTableWord 8 0x00 = none := by decide

/-- After reset the instruction that is placed is the one that runs: JMPIF finds no operand and fails, past its Words. -/
theorem test_fetch_word :
    endRow (State.reset.withFetchWord 16 0x2A04) = some ⟨2, [0x2A#8], [], [], .ok, some .continued⟩ ∧
    endRow (State.reset.withFetchWord 24 0x000510) = some ⟨5, [], [], [], .ok, some .continued⟩ ∧
    endRow (State.reset.withFetchWord 16 0x0309) = some ⟨4, [], [], [], .error, some (.failed .stackUnderflow)⟩ := by
  decide

/-! ### One cycle each: sections 2, 3 and 4 of the vectors -/

theorem test_nop : oneCycle [0x0C#8] 0 [1#8, 2#8] [9#8] [0] true =
    some ⟨1, [1#8, 2#8], [9#8], [0], .ok, some .continued⟩ := by decide
theorem test_drop : oneCycle [0x01#8] 0 [5#8, 6#8] [] [0] true =
    some ⟨1, [5#8], [], [0], .ok, some .continued⟩ := by decide
theorem test_drop_not_strict : oneCycle [0x01#8] 0 [] [] [0] false =
    some ⟨1, [], [], [0], .ok, some (.failed .stackUnderflow)⟩ := by decide
theorem test_pop : oneCycle [0x02#8] 0 [7#8] [0#8, 5#8] [0, 2] true =
    some ⟨1, [], [0#8, 5#8, 7#8], [0, 2], .ok, some .continued⟩ := by decide
theorem test_pop_empty : oneCycle [0x02#8] 0 [] [] [0] true =
    some ⟨1, [], [], [0], .error, some (.failed .stackUnderflow)⟩ := by decide
theorem test_push : oneCycle [0x03#8] 0 [1#8] [0#8, 5#8, 7#8] [0, 2] true =
    some ⟨1, [1#8, 7#8], [0#8, 5#8], [0, 2], .ok, some .continued⟩ := by decide
theorem test_push_at_boundary : oneCycle [0x03#8] 0 [1#8] [0#8, 5#8] [0, 2] true =
    some ⟨1, [1#8], [0#8, 5#8], [0, 2], .error, some (.failed .frameViolation)⟩ := by decide
theorem test_pushval : oneCycle [0x04#8, 0x00#8] 0 [1#8] [] [0] true =
    some ⟨2, [1#8, 0#8], [], [0], .ok, some .continued⟩ := by decide
theorem test_pushval_cut : oneCycle [0x04#8] 0 [] [] [0] true =
    some ⟨1, [], [], [0], .error, some .faulted⟩ := by decide
theorem test_dup : oneCycle [0x05#8] 0 [3#8, 4#8] [] [0] true =
    some ⟨1, [3#8, 4#8, 4#8], [], [0], .ok, some .continued⟩ := by decide
theorem test_dup_empty : oneCycle [0x05#8] 0 [] [] [0] true =
    some ⟨1, [], [], [0], .error, some (.failed .stackUnderflow)⟩ := by decide
theorem test_swap : oneCycle [0x06#8] 0 [1#8, 2#8, 3#8] [] [0] true =
    some ⟨1, [1#8, 3#8, 2#8], [], [0], .ok, some .continued⟩ := by decide
theorem test_swap_one : oneCycle [0x06#8] 0 [1#8] [] [0] true =
    some ⟨1, [1#8], [], [0], .error, some (.failed .stackUnderflow)⟩ := by decide
theorem test_inc_wraps : oneCycle [0x07#8] 0 [0xFF#8] [] [0] true =
    some ⟨1, [0x00#8], [], [0], .ok, some .continued⟩ := by decide
theorem test_inc_top_only : oneCycle [0x07#8] 0 [9#8, 0x7F#8] [] [0] true =
    some ⟨1, [9#8, 0x80#8], [], [0], .ok, some .continued⟩ := by decide
theorem test_dec_wraps : oneCycle [0x08#8] 0 [0x00#8] [] [0] true =
    some ⟨1, [0xFF#8], [], [0], .ok, some .continued⟩ := by decide
theorem test_dec_top_only : oneCycle [0x08#8] 0 [9#8, 0xFF#8] [] [0] true =
    some ⟨1, [9#8, 0xFE#8], [], [0], .ok, some .continued⟩ := by decide
theorem test_jmpif_taken : oneCycle [0x09#8, 3#8, 6#8, 0#8, 0x0C#8, 0x0C#8, 0x0A#8] 0 [5#8, 3#8] [] [0] true =
    some ⟨6, [5#8], [], [0], .ok, some .continued⟩ := by decide
theorem test_jmpif_not_taken : oneCycle [0x09#8, 3#8, 6#8, 0#8, 0x0C#8, 0x0C#8, 0x0A#8] 0 [5#8, 4#8] [] [0] true =
    some ⟨4, [5#8], [], [0], .ok, some .continued⟩ := by decide
theorem test_ret_keeps_scratch : oneCycle [0x0A#8] 0 [] [9#8, 0#8, 6#8] [0, 3] true =
    some ⟨6, [], [9#8], [0], .ok, some .continued⟩ := by decide
theorem test_ret_malformed : oneCycle [0x0A#8] 0 [] [7#8, 7#8] [0, 2] true =
    some ⟨1, [], [], [0], .error, some (.failed .malformedAddress)⟩ := by decide
theorem test_call_past_itself : oneCycle [0x0C#8, 0x0B#8, 6#8, 0#8] 1 [7#8] [] [0] true =
    some ⟨6, [7#8], [0#8, 4#8], [0, 2], .ok, some .continued⟩ := by decide
theorem test_call_nested : oneCycle [0x0B#8, 9#8, 0#8] 0 [] [0#8, 5#8, 7#8] [0, 2] true =
    some ⟨9, [], [0#8, 5#8, 7#8, 0#8, 3#8], [0, 2, 5], .ok, some .continued⟩ := by decide
theorem test_goto_little_endian : oneCycle [0x10#8, 0x56#8, 0x34#8, 0x12#8, 0#8] 0 [] [] [0] true =
    some ⟨1193046, [], [], [0], .ok, some .continued⟩ := by decide
theorem test_goto_cut : oneCycle [0x10#8, 5#8] 0 [] [] [0] false =
    some ⟨2, [], [], [0], .error, some .faulted⟩ := by decide
theorem test_invalid_opcode : oneCycle [0xFF#8] 0 [1#8] [] [0] false =
    some ⟨1, [1#8], [], [0], .ok, some (.failed .invalidOpcode)⟩ := by decide

/-- R5, D2: with `AW = 4` the eighth nested CALL would push the boundary 16; the seventh pushes 14. -/
theorem test_call_boundary_width :
    (nextOf (exec (.call 0) { machine [] [] (List.replicate 12 0#8) [0] with
      ip := 3, cfg := { Config.standard with aw := some 4 } })).map (·.cl) = some [0, 14] ∧
    exec (.call 0) { machine [] [] (List.replicate 14 0#8) [0] with
      ip := 3, cfg := { Config.standard with aw := some 4 } } = .refused .callLevelWidth :=
  ⟨by decide, rfl⟩

/-! ### The codec: section 5 of the vectors -/

theorem test_call_push : callPush 0 [] = [0#8, 0#8] ∧ callPush 255 [] = [0#8, 0xFF#8] ∧
    callPush 256 [] = [0#8, 1#8, 0#8] ∧ callPush 0x123456 [9#8] = [9#8, 0#8, 0x12#8, 0x34#8, 0x56#8] := by decide
theorem test_call_pop : callPop [0#8, 0x12#8, 0x34#8] = some (0x1234, []) ∧
    callPop [9#8, 0#8, 0#8] = some (0, [9#8]) ∧ callPop (callPush 256 []) = some (0, [0#8]) ∧
    callPop [7#8, 7#8] = none ∧ callPop [0#8] = none := by decide

/-! ### Memory and the host -/

theorem test_memory : Memory.wf (Memory.ofWords [4#8, 5#8]) = true ∧ Memory.read (Memory.ofWords [4#8, 5#8]) 1 = some 5#8 ∧
    Memory.read (Memory.ofWords [4#8, 5#8]) 2 = none ∧ Memory.wf [(0, 4#8), (2, 5#8)] = false ∧
    Memory.wf [(1, 4#8), (0, 5#8)] = false := by decide

/-- D4: a `step` with nothing loaded faults at index 0. -/
theorem test_empty_memory : oneCycle [] 0 [] [] [] true = some ⟨0, [], [], [], .error, some .faulted⟩ := by decide

/-- S2: `RET` alone, its one cycle in a run ends it. -/
theorem test_run_ret : (nextOf (step (running none 0 (machine [0x0A#8] [] [] [0])))).map
    (fun t => (t.run, t.status, t.cl, t.ip)) = some (none, .ok, [], 1) := by decide

/-- R106, D31: a halt at a boundary wins over a spent budget. -/
theorem test_halt_before_budget : (nextOf (step { running (some 1) 1 (machine [0x0A#8] [] [] [0]) with halts := [true] })).map
    (fun t => (t.run, t.status, t.cl)) = some (none, .user, [0]) := by decide

/-- R109: the results are readable only when no run is in progress. -/
theorem test_results : (machine [] [1#8, 2#8] [] []).results = some ([1#8, 2#8], .ok) ∧
    (running none 0 (machine [] [1#8] [] [])).results = none := by decide

/-! ### Witnesses: the hypotheses of the statements can be met, clause by clause

A statement about all states of a run or of a `step` of the host has here a state that meets its hypotheses and the
next state that its conclusion is about. Capacities are exactly full after the instruction, budgets have one cycle
left, address widths admit exactly the instruction. -/

/-- A run at its last budgeted cycle, about to execute the instruction at index 0. -/
def lastCycle (mem ds cs : List Word) (cl : List Nat) : State := running (some 3) 2 (machine mem ds cs cl)

theorem witness_OpcodeMapAsTabled : streamDecode Config.standard [0#8, 0#8] = some (0, 2) ∧
    streamDecode firstByteEnds [0#8] = some (0, 1) ∧
    streamDecode Config.standard [0xFF#8, 0xFF#8, 0#8, 7#8] = some (65535, 3) := by decide

theorem witness_UnknownOpcodesAreTheRest :
    decode Config.standard [0x00#8] = .unknown 0x00#8 ∧
    decode { Config.standard with opc00IsNop := true } [0x0D#8] = .unknown 0x0D#8 ∧
    decode { Config.standard with opc00IsNop := true } [0x00#8] ≠ .unknown 0x00#8 := by decide

theorem witness_DecodeEncodeAgree : Instr.wf Config.standard (.jmpif 0#8 65535) = true ∧
    Instr.wf Config.standard (.call 0) = true ∧ Instr.wf firstByteEnds (.goto 0) = true ∧
    Instr.wf firstByteEnds (.goto 0x0101) = true := by decide

theorem witness_EncodingIsUnique : Config.standard.opc00IsNop = false ∧
    decode Config.standard [0x09#8, 0#8, 0#8, 1#8, 0#8, 0x0A#8] = .instr (.jmpif 0#8 256) 5 := by decide

theorem witness_TargetIsLittleEndian :
    ((∀ w ∈ ([] : List Word), w ≠ endmark) ∧
      (Config.standard.streamFirstByteTerminates = true → (0x00#8 : Word) ≠ endmark)) ∧
    ((∀ w ∈ [0x34#8, 0x12#8], w ≠ endmark) ∧
      (firstByteEnds.streamFirstByteTerminates = true → (0x56#8 : Word) ≠ endmark)) := by decide

theorem witness_StreamCarriesEncodable : streamDecode Config.standard [0xFF#8, 0xFF#8, 0#8] = some (65535, 3) ∧
    (65535 < 65536 ∧ streamEncodable Config.standard 65535 = true) ∧ streamEncodable Config.standard 65536 = false := by
  decide

theorem witness_NopHasNoEffect :
    let s := { lastCycle [0x0C#8] [] [] [0] with cfg := { Config.standard with aw := some 1 } }
    s.run = some { maxsteps := some 3, steps := 2 } ∧ s.status = .ok ∧ s.halts.head? ≠ some true ∧
    RunCtl.spent { maxsteps := some 3, steps := 2 } = false ∧ fetch s = .instr .nop 1 ∧ ipFits s.cfg s.ip 1 = true := by
  decide

theorem witness_DropDiscardsTop : (machine [] [7#8] [] []).ds = [] ++ [7#8] ∧ (machine [] [] [] []).ds = [] := by decide

theorem witness_PopMovesToCallStack :
    let s := { machine [] [7#8] [] [0] with cfg := sized 1 1 1 }
    (s.ds = [] ++ [7#8] ∧ withinCap s.cfg.csCap (s.cs.length + 1) = true) ∧ (machine [] [] [] []).ds = [] := by decide

theorem witness_PushTakesFromFrame :
    let s := { machine [] [] [0#8, 3#8, 7#8] [0, 2] with cfg := sized 1 3 2 }
    (s.cl = [0] ++ [2] ∧ s.cs = [0#8, 3#8] ++ [7#8] ∧ 2 < s.cs.length ∧
      withinCap s.cfg.dsCap (s.ds.length + 1) = true) ∧
    (machine [] [] [0#8, 3#8] [0, 2]).cl = [0] ++ [2] ∧ (machine [] [] [0#8, 3#8] [0, 2]).cs.length ≤ 2 := by decide

theorem witness_PushvalPushesLiteral :
    let s := { machine [] [] [] [] with cfg := sized 1 0 0 }
    withinCap s.cfg.dsCap (s.ds.length + 1) = true := by decide

theorem witness_DupDuplicatesTop :
    let s := { machine [] [7#8] [] [] with cfg := sized 2 0 0 }
    (s.ds = [] ++ [7#8] ∧ withinCap s.cfg.dsCap (s.ds.length + 1) = true) ∧ (machine [] [] [] []).ds = [] := by decide

theorem witness_SwapExchangesTopTwo : (machine [] [1#8, 2#8] [] []).ds = [] ++ [1#8, 2#8] ∧
    (machine [] [1#8] [] []).ds.length < 2 := by decide

theorem witness_IncWrapsUp : (machine [] [0xFF#8] [] []).ds = [] ++ [0xFF#8] ∧ (machine [] [] [] []).ds = [] := by decide

theorem witness_DecWrapsDown : (machine [] [0x00#8] [] []).ds = [] ++ [0x00#8] ∧ (machine [] [] [] []).ds = [] := by decide

theorem witness_IncDecUndoEachOther : (machine [] [0xFF#8] [] []).ds ≠ [] := by decide

theorem witness_JmpifPopsAndCompares :
    streamDecode Config.standard [0#8, 0#8] = some (0, 2) ∧ streamDecode Config.standard [0#8] = none ∧
    streamDecode Config.standard [] = none ∧ (machine [] [0#8] [] []).ds = [] ++ [0#8] ∧
    ((machine [] [0xFF#8] [] []).ds = [] ++ [0xFF#8] ∧ 0xFF#8 ≠ (0x00#8 : Word)) ∧ (machine [] [] [] []).ds = [] := by
  decide

theorem witness_CallPushesFrame :
    streamDecode Config.standard [0#8, 0#8] = some (0, 2) ∧
    let s := { machine [] [] [] [] with ip := 255, cfg := { sized 0 2 1 with aw := some 2 } }
    withinCap s.cfg.csCap (callPush s.ip s.cs).length = true ∧ withinCap s.cfg.clCap (s.cl.length + 1) = true ∧
    addressFits s.cfg (callPush s.ip s.cs).length = true := by decide

theorem witness_GotoJumps : streamDecode Config.standard [0#8, 1#8, 0#8] = some (256, 3) := by decide

theorem witness_RetReturns :
    (let s := machine [] [] [9#8, 0#8, 0xFF#8] [0, 3]
     s.cl = [0] ++ [s.cs.length] ∧ s.cs = [9#8] ++ endmark :: [0xFF#8].reverse ∧ [0xFF#8] ≠ ([] : List Word) ∧
       ∀ w ∈ [0xFF#8], w ≠ endmark) ∧
    (let s := machine [] [] [0#8, 0#8] [2]
     s.cl = [] ++ [s.cs.length] ∧ s.cs = [] ++ [0#8, endmark]) ∧
    let s := machine [] [] [9#8] [0]
    s.cl = [] ++ [0] ∧ s.cs.length ≠ 0 := by decide

theorem witness_RetTerminates : (machine [] [] [] [0, 0]).cl = [0] ++ [0] ∧ (machine [] [] [] [0, 0]).cs = [] := by decide

theorem witness_EmptyLevelsFail : (machine [] [] [9#8] []).cl = [] ∧
    (Instr.push = .push ∨ Instr.push = .ret) ∧ (Instr.ret = .push ∨ Instr.ret = .ret) := by decide

theorem witness_MalformedReturnKeepsPops :
    (let s := machine [] [] [7#8, 7#8] [0, 2]
     s.cl = [0] ++ [s.cs.length] ∧ s.cs ≠ [] ∧ ∀ w ∈ s.cs, w ≠ endmark) ∧
    let s := machine [] [] [0#8] [1]
    s.cl = [] ++ [s.cs.length] ∧ s.cs ≠ [] ∧ s.cs = [endmark] := by decide

theorem witness_StackUnderflowExactly :
    ((machine [] [] [] []).ds = [] ∧ (machine [] [9#8] [] []).ds.length < 2) ∧
    (nextOf (exec .swap (machine [] [9#8] [] []))).map (·.result) = some (some (.failed .stackUnderflow)) ∧
    (nextOf (exec (.jmpif 0#8 0) (machine [] [] [] []))).map (·.result) = some (some (.failed .stackUnderflow)) := by
  decide

theorem witness_OtherFailuresExactly :
    (nextOf (exec .push (machine [] [] [0#8, 3#8] [0, 2]))).map (·.result) = some (some (.failed .frameViolation)) ∧
    (nextOf (exec .ret (machine [] [] [9#8] [0]))).map (·.result) = some (some (.failed .frameViolation)) ∧
    (nextOf (exec .ret (machine [] [] [0#8] [1]))).map (·.result) = some (some (.failed .malformedAddress)) ∧
    (nextOf (exec .ret (machine [] [] [0#8, 3#8] [2]))).map (·.result) = some (some .continued) := by decide

theorem witness_StrictPolicy :
    (nextOf (exec .drop (machine [] [] [] []))).map (·.status) = some .error ∧
    (nextOf (exec .drop { machine [] [] [] [] with strict := false })).map (·.status) = some .ok ∧
    (nextOf (exec .drop { machine [] [1#8] [] [] with status := .user })).map (·.status) = some .user := by decide

theorem witness_InvalidOpcodeFails :
    let s := { machine [0x0D#8] [] [] [] with
      status := .user, commands := [.step false], cfg := { Config.standard with aw := some 1 } }
    (fetch s = .unknown 0x0D#8 ∧ ipFits s.cfg s.ip 1 = true ∧ s.run = none ∧ s.commands = [.step false]) ∧
    let u := lastCycle [0x0D#8] [] [] [0]
    fetch u = .unknown 0x0D#8 ∧ ipFits u.cfg u.ip 1 = true ∧ u.run = some { maxsteps := some 3, steps := 2 } ∧
      u.status = .ok ∧ u.halts.head? ≠ some true ∧ RunCtl.spent { maxsteps := some 3, steps := 2 } = false := by decide

theorem witness_FetchFaultEndsCycle :
    (let s := machine [0x09#8, 3#8, 6#8] [3#8] [] []
     Memory.wf s.mem = true ∧ fetch s = .cut 3 ∧ ipFits s.cfg s.ip 3 = true) ∧
    (let s := { machine [] [] [] [] with
       ip := 7, status := .user, commands := [.step false], cfg := { Config.standard with aw := some 1 } }
     Memory.wf s.mem = true ∧ fetch s = .cut 0 ∧ ipFits s.cfg s.ip 0 = true ∧ s.run = none ∧
       s.commands = [.step false]) ∧
    let u := lastCycle [0x10#8, 5#8] [] [] [0]
    Memory.wf u.mem = true ∧ fetch u = .cut 2 ∧ ipFits u.cfg u.ip 2 = true ∧
      u.run = some { maxsteps := some 3, steps := 2 } ∧ u.status = .ok ∧ u.halts.head? ≠ some true ∧
      RunCtl.spent { maxsteps := some 3, steps := 2 } = false := by decide

theorem witness_FetchReadsOnlyExisting :
    (let s := machine [0x04#8, 5#8] [] [] []
     Memory.wf s.mem = true ∧ fetch s = .instr (.pushval 5#8) 2 ∧ (Memory.read s.mem 1).isSome = true ∧ 1 < s.N) ∧
    (let s := machine [0x00#8] [] [] []
     Memory.wf s.mem = true ∧ fetch s = .unknown 0x00#8) ∧
    (let s := machine [0x04#8] [] [] []
     Memory.wf s.mem = true ∧ fetch s = .cut 1 ∧ ipFits s.cfg s.ip 1 = true) ∧
    let s := { machine [0x0C#8] [] [] [] with ip := 1 }
    Memory.wf s.mem = true ∧ s.N ≤ s.ip := by decide

theorem witness_ErrorIsExplained :
    (let s := machine [0x01#8] [] [] [0]
     s.status = .ok ∧ (nextOf (cycle s)).map (·.status) = some .error) ∧
    (let s := machine [] [] [] [0]
     s.status = .ok ∧ (nextOf (cycle s)).map (·.status) = some .error) ∧
    let s := { machine [0x01#8] [] [] [0] with strict := false }
    s.status = .ok ∧ (nextOf (cycle s)).map (·.status) = some .ok := by decide

theorem witness_CallPushLayout : ((255 : Nat) ≠ 0 ∧ 0 < nbytes 255 ∧ nbytes 255 = 1) ∧
    ((256 : Nat) ≠ 0 ∧ 1 < nbytes 256 ∧ (1 ≤ 2 ∧ 256 < 2 ^ (8 * 2)) ∧ nbytes 256 = 2) := by decide

theorem witness_CallPopDecodes : [0x01#8] ≠ ([] : List Word) ∧ (∀ w ∈ [0x01#8], w ≠ endmark) ∧
    callPop [] = none ∧ callPop [endmark] = none := by decide

theorem witness_RoundTripExactly : (∀ i, i < nbytes 255 → byteAt 255 i ≠ endmark) ∧
    ¬ ∀ i, i < nbytes 256 → byteAt 256 i ≠ endmark := by decide

theorem witness_OutsideRoundTrip : ((256 : Nat) ≠ 0 ∧ byteAt 256 0 = endmark) ∧
    (1 ≤ 1 ∧ 1 < nbytes 0x10001 ∧ byteAt 0x10001 1 = endmark ∧ ∀ i, i < 1 → byteAt 0x10001 i ≠ endmark) := by decide

theorem witness_CallThenReturn :
    let s := { machine [] [] [9#8] [0] with ip := 255 }
    let t := { s with cs := [9#8, 0#8, 0xFF#8], cl := [0, 3], ip := 0, result := some .continued }
    exec (.call 0) s = .next t ∧ roundTrips s.ip = true ∧ t.cs = t.cs ∧ t.cl = t.cl := by
  refine ⟨rfl, ?_, rfl, rfl⟩
  decide

theorem witness_FrameBelowBoundaryKept :
    (let s := machine [] [9#8] [0#8, 3#8] [0, 2]
     (nextOf (exec .pop s)).isSome = true ∧ Instr.pop ≠ .ret ∧ s.cl = [0] ++ [2] ∧ 2 ≤ s.cs.length) ∧
    let s := machine [] [] [0#8, 3#8, 9#8] [0, 2]
    (nextOf (exec (.call 0) s)).isSome = true ∧ Instr.call 0 ≠ .ret ∧ s.cl = [0] ++ [2] ∧ 2 ≤ s.cs.length := by decide

theorem witness_InstructionsReachTheirSpaces :
    (nextOf (exec (.jmpif 3#8 6) (machine [] [3#8] [] [0]))).map (fun t => (t.ds, t.ip)) = some ([], 6) ∧
    (nextOf (exec (.call 6) (machine [] [] [] [0]))).map (fun t => (t.cs, t.cl, t.ip)) = some ([0#8, 0#8], [0, 2], 6) := by
  decide

theorem witness_OnlyLoadprogramWritesMemory :
    (nextOf (exec .nop (machine [0x0C#8] [] [] []))).isSome = true ∧
    (nextOf (step (lastCycle [0x0C#8] [] [] [0]))).map (·.mem) = some [(0, 0x0C#8)] ∧
    (nextOf (step { machine [0x0C#8] [] [] [] with commands := [.loadprogram []] })).map (·.mem) = some [] := by decide

theorem witness_StepCommandRunsDecoded :
    let s := { machine [0x0B#8, 9#8, 0#8] [] [] [] with
      status := .maxsteps, commands := [.step false], cfg := { Config.standard with aw := some 2 } }
    s.run = none ∧ s.commands = [.step false] ∧
    decode s.cfg (Memory.wordsFrom s.mem s.ip) = .instr (.call 9) 3 ∧ ipFits s.cfg s.ip 3 = true := by decide

theorem witness_RunStepRunsDecoded :
    (let s := lastCycle [0x04#8, 5#8] [] [] [0]
     s.run = some { maxsteps := some 3, steps := 2 } ∧ s.status = .ok ∧ s.halts.head? ≠ some true ∧
     RunCtl.spent { maxsteps := some 3, steps := 2 } = false ∧
     decode s.cfg (Memory.wordsFrom s.mem s.ip) = .instr (.pushval 5#8) 2 ∧ ipFits s.cfg s.ip 2 = true ∧
     (nextOf (exec (.pushval 5#8) { s with halts := s.halts.tail, ip := s.ip + 2 })).isSome = true) ∧
    let s := { lastCycle [0x04#8, 5#8] [] [] [0] with cfg := sized 0 0 1 }
    fetch s = .instr (.pushval 5#8) 2 ∧ ipFits s.cfg s.ip 2 = true ∧
    exec (.pushval 5#8) { s with halts := s.halts.tail, ip := s.ip + 2 } = .refused .dataStackCapacity := by
  refine ⟨by decide, by decide, by decide, rfl⟩

theorem witness_LoadprogramReplacesMemory :
    let s := { machine [1#8, 2#8] [] [] [] with
      commands := [.loadprogram [0x0A#8]], cfg := { Config.standard with memCap := some 1 } }
    s.run = none ∧ s.commands = [.loadprogram [0x0A#8]] ∧ withinCap s.cfg.memCap [0x0A#8].length = true := by decide

theorem witness_SetdataReplacesDataStack :
    let s := { machine [] [9#8] [] [] with commands := [.setdata [1#8, 2#8]], cfg := sized 2 0 0 }
    s.run = none ∧ s.commands = [.setdata [1#8, 2#8]] ∧ withinCap s.cfg.dsCap [1#8, 2#8].length = true := by decide

theorem witness_ResetCommandKeepsMemoryAndStatus :
    let s := { machine [1#8] [9#8] [9#8] [1] with ip := 5, status := .error, commands := [.reset] }
    s.run = none ∧ s.commands = [.reset] ∧ s.cfg.resetClearsStatus = false := by decide

theorem witness_RunPushesSentinel :
    let s := { machine [] [] [] [] with status := .user, commands := [.run false (some 0)], cfg := sized 0 0 1 }
    s.run = none ∧ s.commands = [.run false (some 0)] ∧ withinCap s.cfg.clCap (s.cl.length + 1) = true := by decide

theorem witness_HaltStopsAtBoundary :
    (let s := { machine [] [] [] [] with status := .error, commands := [.halt] }
     s.run = none ∧ s.commands = [.halt]) ∧
    let s := { lastCycle [] [] [] [0] with halts := [true] }
    s.run = some { maxsteps := some 3, steps := 2 } ∧ s.halts = true :: [] := by decide

theorem witness_BudgetExhaustionEndsRun :
    let s := { running (some 0) 0 (machine [0x0A#8] [] [] [0]) with halts := [false] }
    (s.run = some { maxsteps := some 0, steps := 0 } ∧ (0 : Nat) ≤ 0 ∧ s.status = .ok ∧ s.halts.head? ≠ some true) ∧
    (nextOf (step s)).map (·.status) = some .maxsteps ∧ s.status ≠ .maxsteps := by decide

theorem witness_TerminalStatusEndsRun :
    let s := { lastCycle [0x0C#8] [] [] [0] with status := .error }
    s.run = some { maxsteps := some 3, steps := 2 } ∧ s.status ≠ .ok ∧ s.halts.head? ≠ some true := by decide

theorem witness_OnlyRetEndsRunOk :
    let s := lastCycle [0x0A#8] [] [] [0, 0]
    (s.run = some { maxsteps := some 3, steps := 2 } ∧ s.status = .ok ∧ s.halts.head? ≠ some true ∧
      RunCtl.spent { maxsteps := some 3, steps := 2 } = false ∧ fetch s = .instr .ret 1 ∧
      ipFits s.cfg s.ip 1 = true ∧ s.cl = [0] ++ [0] ∧ s.cs = []) ∧
    (nextOf (step s)).map (fun t => (t.run, t.status)) = some (none, .ok) := by decide

theorem witness_RunHoldsInputs :
    let s := { lastCycle [0x0C#8] [] [] [0] with commands := [.setdata [1#8]], halts := [false, true] }
    s.run = some { maxsteps := some 3, steps := 2 } ∧
    (nextOf (step s)).map (fun t => (t.commands, t.halts)) = some ([.setdata [1#8]], [true]) := by decide

theorem witness_TerminalStatusNeverOkAgain :
    let s := { machine [] [] [] [] with status := .error, commands := [.reset] }
    s.cfg.resetClearsStatus = false ∧ s.status ≠ .ok ∧ (nextOf (step s)).map (·.status) = some .error := by decide

theorem witness_standard_Unbounded : Unbounded Config.standard := ⟨rfl, rfl, rfl, rfl, rfl⟩

theorem witness_BoundedExecution :
    (let s := lastCycle [0x10#8, 0#8, 0#8] [] [] [0]
     s.run = some { maxsteps := some 3, steps := 2 } ∧ s.cfg = Config.standard ∧
     (nextOf (step s)).map (·.run) = some (some { maxsteps := some 3, steps := 3 })) ∧
    (let s := running (some 0) 0 (machine [0x0A#8] [] [] [0])
     s.run = some { maxsteps := some 0, steps := 0 } ∧ (nextOf (step s)).map (fun t => (t.run, t.cl)) = some (none, [0])) ∧
    (let s := running none 5 (machine [0x0A#8] [] [] [0])
     s.run = some { maxsteps := none, steps := 5 } ∧ (nextOf (step s)).map (·.run) = some none) ∧
    (let s := { running none 5 (machine [0x0A#8] [] [] [0]) with status := .error }
     (nextOf (step s)).map (·.run) = some none) ∧
    (let s := { running none 5 (machine [0x0A#8] [] [] [0]) with halts := [true] }
     (nextOf (step s)).map (·.run) = some none) ∧
    let s := running none 5 (machine [0x01#8] [] [] [0])
    s.status = .ok ∧ (nextOf (step s)).map (·.status) = some .error := by decide

/-- A state of a run with a call in progress that meets the invariant, its call stack in a capacity exactly full after
the CALL at index 0. -/
def inCall : State :=
  { lastCycle [0x0B#8, 0#8, 0#8] [] [0#8, 5#8, 9#8] [0, 0, 2] with cfg := sized 0 5 4 }

theorem witness_inCall_FrameInv : FrameInv inCall := fun _ => ⟨[0], [2], rfl, by decide⟩

theorem witness_StepKeepsInvariant : Inv inCall ∧
    (nextOf (step inCall)).map (fun t => (t.cs, t.cl)) = some ([0#8, 5#8, 9#8, 0#8, 3#8], [0, 0, 2, 5]) :=
  ⟨⟨by decide, ⟨by decide, by decide, by decide, by decide⟩, witness_inCall_FrameInv⟩, by decide⟩

theorem witness_RunsKeepFrames : (FrameInv inCall ∧ inCall.run.isSome = true) ∧
    ∃ t : State, Host.Core.run Sys2Proof.core 1
        { State.reset with cfg := sized 0 0 1, commands := [.run true none], halts := [] } = .next t ∧
      t.run.isSome = true :=
  ⟨⟨witness_inCall_FrameInv, by decide⟩, _, rfl, rfl⟩

theorem witness_NoMalformedAddressInRun : FrameInv inCall ∧ inCall.run = some { maxsteps := some 3, steps := 2 } ∧
    (nextOf (step inCall)).map (fun t => t.run.isSome) = some true :=
  ⟨witness_inCall_FrameInv, by decide, by decide⟩

theorem witness_ExceededSizesRefused_data_stack :
    let s := { machine [] [9#8] [0#8] [0] with cfg := sized 1 1 0 }
    withinCap s.cfg.dsCap (s.ds.length + 1) = false ∧ s.ds ≠ [] ∧ s.cl = [] ++ [0] ∧ 0 < s.cs.length ∧
      withinCap s.cfg.csCap (s.cs.length + 1) = false := by decide

/-- A call stack with room for one Word of the two; a full call-level stack; a boundary of `2^AW`. -/
theorem witness_ExceededSizesRefused_call :
    (let s := { machine [] [] [0#8] [] with ip := 3, cfg := sized 0 2 1 }
     withinCap s.cfg.csCap (callPush s.ip s.cs).length = false) ∧
    (let s := { machine [] [] [0#8] [0] with ip := 3, cfg := sized 0 3 1 }
     withinCap s.cfg.csCap (callPush s.ip s.cs).length = true ∧ withinCap s.cfg.clCap (s.cl.length + 1) = false) ∧
    let s := { machine [] [] [] [] with ip := 1, cfg := { sized 0 2 1 with aw := some 1 } }
    withinCap s.cfg.csCap (callPush s.ip s.cs).length = true ∧ withinCap s.cfg.clCap (s.cl.length + 1) = true ∧
      addressFits s.cfg (callPush s.ip s.cs).length = false := by decide

theorem witness_ExceededSizesRefused_host :
    (let s := { machine [] [] [] [] with
       commands := [.loadprogram [0x0A#8]], cfg := { Config.standard with memCap := some 0 } }
     s.run = none ∧ s.commands = [.loadprogram [0x0A#8]] ∧ withinCap s.cfg.memCap [0x0A#8].length = false) ∧
    (let s := { machine [] [] [] [] with commands := [.setdata [1#8, 2#8]], cfg := sized 1 0 0 }
     s.run = none ∧ s.commands = [.setdata [1#8, 2#8]] ∧ withinCap s.cfg.dsCap [1#8, 2#8].length = false) ∧
    let s := { machine [] [] [] [] with commands := [.run true none], cfg := sized 0 0 0 }
    s.run = none ∧ s.commands = [.run true none] ∧ withinCap s.cfg.clCap (s.cl.length + 1) = false := by decide

theorem witness_ExceededSizesRefused_width :
    (let s := { machine [0x04#8, 5#8] [] [] [] with
       commands := [.step true], cfg := { Config.standard with aw := some 1 } }
     fetch s = .instr (.pushval 5#8) 2 ∧ ipFits s.cfg s.ip 2 = false ∧ s.run = none ∧ s.commands = [.step true]) ∧
    (let s := { machine [0x10#8, 5#8] [] [] [] with cfg := { Config.standard with aw := some 1 } }
     fetch s = .cut 2 ∧ ipFits s.cfg s.ip 2 = false) ∧
    let s := { lastCycle [0x0D#8] [] [] [0] with cfg := { Config.standard with aw := some 0 } }
    fetch s = .unknown 0x0D#8 ∧ ipFits s.cfg s.ip 1 = false ∧ s.run = some { maxsteps := some 3, steps := 2 } ∧
      s.status = .ok ∧ s.halts.head? ≠ some true ∧ RunCtl.spent { maxsteps := some 3, steps := 2 } = false := by decide

theorem witness_ParametersSelectReadings :
    ({ Config.standard with opc00IsNop := true } : Config).opc00IsNop = true ∧ Config.standard.opc00IsNop = false ∧
    firstByteEnds.streamFirstByteTerminates = true ∧
    let s := { machine [] [9#8] [] [] with
      status := .user, commands := [.reset], cfg := { Config.standard with resetClearsStatus := true } }
    s.run = none ∧ s.commands = [.reset] ∧ s.cfg.resetClearsStatus = true := by decide

end Sys2Proof.Tests
end

section
/-! The frame invariant of a run (R16): what a cycle can do to the call stack and the call-level stack, that every
such move keeps the frames, and that every step of the machine does. -/

namespace Sys2Proof.Machine

/-! ### The frames of a call stack -/

theorem hasMark_iff {cs : List Word} {lo hi : Nat} :
    hasMark cs lo hi = true ↔ ∃ k, lo ≤ k ∧ k + 1 < hi ∧ cs[k]? = some endmark := by
  simp only [hasMark, List.any_eq_true, List.mem_range, Bool.and_eq_true, decide_eq_true_eq, beq_iff_eq]
  constructor
  · rintro ⟨k, -, ⟨hlo, hhi⟩, hk⟩
    exact ⟨k, hlo, hhi, hk⟩
  · rintro ⟨k, hlo, hhi, hk⟩
    exact ⟨k, by omega, ⟨hlo, hhi⟩, hk⟩

/-- Words above the upper boundary of a region do not matter to its mark. -/
theorem hasMark_append {cs : List Word} {lo hi : Nat} (xs : List Word) (h : hi ≤ cs.length) :
    hasMark (cs ++ xs) lo hi = true ↔ hasMark cs lo hi = true := by
  have agree : ∀ k, k + 1 < hi → (cs ++ xs)[k]? = cs[k]? := fun k hk =>
    List.getElem?_append_left (by omega)
  simp only [hasMark_iff]
  refine exists_congr fun k => and_congr_right fun _ => and_congr_right fun hk => ?_
  rw [agree k hk]

@[simp] theorem framesOk_nil {cs : List Word} {base : Nat} : framesOk cs base [] = true ↔ base ≤ cs.length := by
  simp [framesOk]

@[simp] theorem framesOk_cons {cs : List Word} {base b : Nat} {bounds : List Nat} :
    framesOk cs base (b :: bounds) = true ↔ hasMark cs base b = true ∧ framesOk cs b bounds = true := by
  simp [framesOk]

/-- The boundaries rise, and the active one is not above the call stack (R15, R16). -/
theorem framesOk_bounds {cs : List Word} {base : Nat} {bounds : List Nat} (h : framesOk cs base bounds = true) :
    base ≤ bounds.getLastD base ∧ bounds.getLastD base ≤ cs.length := by
  induction bounds generalizing base with
  | nil => simpa using h
  | cons b bounds ih =>
    obtain ⟨hmark, hrest⟩ := framesOk_cons.1 h
    obtain ⟨k, hlo, hhi, -⟩ := hasMark_iff.1 hmark
    obtain ⟨hle, htop⟩ := ih hrest
    rw [List.getLastD_cons]
    omega

/-- Words above the active boundary do not matter to the frames. -/
theorem framesOk_append {cs : List Word} {base : Nat} {bounds : List Nat} (xs : List Word)
    (h : bounds.getLastD base ≤ cs.length) :
    framesOk (cs ++ xs) base bounds = true ↔ framesOk cs base bounds = true := by
  induction bounds generalizing base with
  | nil =>
    rw [List.getLastD_nil] at h
    simp only [framesOk_nil, List.length_append]
    omega
  | cons b bounds ih =>
    rw [List.getLastD_cons] at h
    simp only [framesOk_cons, ih h]
    refine and_congr_left fun hrest => hasMark_append xs ?_
    exact (framesOk_bounds hrest).1.trans h

/-- A frame on top: the frames below it, its mark, and its boundary within the call stack. -/
theorem framesOk_concat {cs : List Word} {base b : Nat} {bounds : List Nat} :
    framesOk cs base (bounds ++ [b]) = true ↔
      framesOk cs base bounds = true ∧ hasMark cs (bounds.getLastD base) b = true ∧ b ≤ cs.length := by
  induction bounds generalizing base with
  | nil =>
    simp only [List.nil_append, framesOk_cons, framesOk_nil, List.getLastD_nil]
    constructor
    · rintro ⟨hmark, hb⟩
      obtain ⟨k, hlo, hhi, -⟩ := hasMark_iff.1 hmark
      exact ⟨by omega, hmark, hb⟩
    · rintro ⟨-, hmark, hb⟩
      exact ⟨hmark, hb⟩
  | cons c bounds ih =>
    simp only [List.cons_append, framesOk_cons, ih, List.getLastD_cons, and_assoc]

/-- Above a sentinel 0 the boundaries of the call-level stack frame the call stack: what `FrameInv` says of a state with
a run in progress. -/
def Framed (cs : List Word) (cl : List Nat) : Prop :=
  ∃ below bounds, cl = below ++ 0 :: bounds ∧ framesOk cs 0 bounds = true

theorem frameInv_iff {s : State} : FrameInv s ↔ (s.run.isSome = true → Framed s.cs s.cl) := Iff.rfl

/-- With no run in progress there is nothing to keep. -/
theorem frameInv_of_idle {s : State} (h : s.run = none) : FrameInv s := by simp [frameInv_iff, h]

/-- The sentinel that `run` pushes frames any call stack (R105). -/
theorem framed_sentinel (cs : List Word) (below : List Nat) : Framed cs (below ++ [0]) :=
  ⟨below, [], rfl, by simp⟩

/-- R16: the active boundary of a framed call stack. -/
theorem Framed.top_le {cs : List Word} {cl : List Nat} (h : Framed cs cl) :
    cl ≠ [] ∧ ∃ b, cl.getLast? = some b ∧ b ≤ cs.length := by
  obtain ⟨below, bounds, rfl, hok⟩ := h
  have htop : (below ++ 0 :: bounds).getLast? = some (bounds.getLastD 0) := by
    simp [List.getLast?_cons]
  exact ⟨by simp, _, htop, (framesOk_bounds hok).2⟩

/-- Words pushed on the call stack keep its frames. -/
theorem Framed.append {cs : List Word} {cl : List Nat} (h : Framed cs cl) (xs : List Word) : Framed (cs ++ xs) cl := by
  obtain ⟨below, bounds, rfl, hok⟩ := h
  exact ⟨below, bounds, rfl, (framesOk_append xs (framesOk_bounds hok).2).2 hok⟩

/-- Words popped down to the active boundary at most keep the frames. -/
theorem Framed.of_append {cs xs : List Word} {below : List Nat} {b : Nat} (h : Framed (cs ++ xs) (below ++ [b]))
    (hb : b ≤ cs.length) : Framed cs (below ++ [b]) := by
  obtain ⟨low, bounds, hcl, hok⟩ := h
  have htop : b = bounds.getLastD 0 := by
    have := congrArg List.getLast? hcl
    simpa [List.getLast?_cons] using this
  exact ⟨low, bounds, hcl, (framesOk_append xs (htop ▸ hb)).1 hok⟩

/-- A return address pushed and its boundary above it make one more frame (R82, R93). -/
theorem Framed.after_call {cs : List Word} {cl : List Nat} (h : Framed cs cl) (a : Nat) :
    Framed (callPush a cs) (cl ++ [(callPush a cs).length]) := by
  obtain ⟨below, bounds, rfl, hok⟩ := h
  have htop := (framesOk_bounds hok).2
  have hmark : hasMark (callPush a cs) (bounds.getLastD 0) (callPush a cs).length = true := by
    have hlen := callBytes_length_ge a
    refine hasMark_iff.2 ⟨cs.length, htop, by rw [callPush_length]; omega, ?_⟩
    simp [callPush, callBytes_eq]
  refine ⟨below, bounds ++ [(callPush a cs).length], by simp, framesOk_concat.2 ⟨?_, hmark, le_rfl⟩⟩
  exact (framesOk_append _ htop).2 hok

/-- A call stack with a mark, and a Word above it, at `lo` or higher: `CallPop` succeeds and
leaves the lowest `lo` Words at least. -/
theorem callPop_of_hasMark {cs : List Word} {lo : Nat} (h : hasMark cs lo cs.length = true) :
    ∃ a left popped, callPop cs = some (a, left) ∧ cs = left ++ popped ∧ lo ≤ left.length := by
  obtain ⟨k, hlo, hhi, hk⟩ := hasMark_iff.1 h
  rcases callPop_cases cs with ⟨-, hno | rfl⟩ | ⟨below, w, rfl, hpop⟩ | ⟨below, bytes, rfl, -, hno, hpop⟩
  · exact absurd rfl (hno endmark (List.mem_of_getElem? hk))
  · simp at hhi
  · simp only [List.length_append, List.length_cons, List.length_nil] at hhi
    exact ⟨0, below, _, hpop, rfl, by omega⟩
  · have hle : k ≤ below.length := by
      by_contra hgt
      obtain ⟨j, rfl⟩ : ∃ j, k = below.length + (j + 1) := ⟨k - below.length - 1, by omega⟩
      rw [List.getElem?_append_right (by omega)] at hk
      have hj : bytes.reverse[j]? = some endmark := by simpa using hk
      exact hno endmark (by simpa using List.mem_of_getElem? hj) rfl
    exact ⟨_, below, _, hpop, rfl, hlo.trans hle⟩

/-- RET at its boundary with a call stack that is not empty: the frame on top is a call's, so its return address can be
decoded, and what is left is framed by the boundaries left (R84). -/
theorem Framed.after_ret {cs : List Word} {ls : List Nat} (h : Framed cs (ls ++ [cs.length])) (hne : cs ≠ []) :
    ∃ a left, callPop cs = some (a, left) ∧ Framed left ls := by
  obtain ⟨below, bounds, hcl, hok⟩ := h
  rcases List.eq_nil_or_concat bounds with rfl | ⟨bs, b, rfl⟩
  · have hlen : cs.length = 0 := by simpa using congrArg List.getLast? hcl
    exact absurd (List.length_eq_zero_iff.1 hlen) hne
  · rw [List.concat_eq_append] at hcl hok
    have hcl' : ls ++ [cs.length] = (below ++ 0 :: bs) ++ [b] := by simpa using hcl
    obtain ⟨rfl, hb⟩ := List.append_inj' hcl' rfl
    obtain rfl : cs.length = b := by simpa using hb
    obtain ⟨hrest, hmark, -⟩ := framesOk_concat.1 hok
    obtain ⟨a, left, popped, hpop, hcs, hle⟩ := callPop_of_hasMark hmark
    refine ⟨a, left, hpop, below, bs, rfl, ?_⟩
    rw [hcs] at hrest
    exact (framesOk_append popped hle).1 hrest

/-! ### What a cycle can do to the two call stacks -/

/-- Every way that a cycle has of going from a call stack `cs` and a call-level stack `cl` to the state `t`. -/
inductive FrameMove (cs : List Word) (cl : List Nat) (t : State) : Prop
  /-- Neither stack is written. -/
  | kept (hcs : t.cs = cs) (hcl : t.cl = cl)
  /-- POP pushes a Word on the call stack (R68). -/
  | pushed (v : Word) (hcs : t.cs = cs ++ [v]) (hcl : t.cl = cl)
  /-- PUSH pops a Word above the active boundary `b` (R69). -/
  | popped (ls : List Nat) (b : Nat) (v : Word) (hs : cl = ls ++ [b]) (hb : b ≤ t.cs.length)
      (hcs : cs = t.cs ++ [v]) (hcl : t.cl = cl)
  /-- CALL pushes a return address and its boundary (R82). -/
  | called (a : Nat) (hcs : t.cs = callPush a cs) (hcl : t.cl = cl ++ [t.cs.length])
  /-- RET terminates (R84, D10). -/
  | terminated (hresult : t.result = some .terminated)
  /-- RET pops its boundary and the return address (R84). -/
  | returned (a : Nat) (hs : cl = t.cl ++ [cs.length]) (hne : cs ≠ []) (hpop : callPop cs = some (a, t.cs))
  /-- RET pops its boundary and finds no return address (D12). -/
  | malformed (ls : List Nat) (hs : cl = ls ++ [cs.length]) (hne : cs ≠ []) (hpop : callPop cs = none)

/-- Every move of a cycle keeps the frames, unless it terminates the run. -/
theorem FrameMove.framed {cs : List Word} {cl : List Nat} {t : State} (m : FrameMove cs cl t) (h : Framed cs cl) :
    t.result = some .terminated ∨ Framed t.cs t.cl := by
  cases m with
  | kept hcs hcl => rw [hcs, hcl]; exact .inr h
  | pushed v hcs hcl => rw [hcs, hcl]; exact .inr (h.append [v])
  | popped ls b v hs hb hcs hcl =>
    rw [hcs, hs] at h
    rw [hcl, hs]
    exact .inr (h.of_append hb)
  | called a hcs hcl => rw [hcl, hcs]; exact .inr (h.after_call a)
  | terminated hresult => exact .inl hresult
  | returned a hs hne hpop =>
    rw [hs] at h
    obtain ⟨a', left, hpop', hleft⟩ := h.after_ret hne
    obtain ⟨-, rfl⟩ : a = a' ∧ t.cs = left := by simpa [hpop] using hpop'
    exact .inr hleft
  | malformed ls hs hne hpop =>
    rw [hs] at h
    obtain ⟨a, left, hpop', -⟩ := h.after_ret hne
    simp [hpop] at hpop'

/-- What a cycle does to the control state of a run: it leaves the run in progress as it is (the loop writes it), and
moves the two call stacks in one of the ways of `FrameMove`. -/
def ControlMove (s t : State) : Prop := t.run = s.run ∧ FrameMove s.cs s.cl t

theorem ControlMove.of_kept {s t : State} (hcs : t.cs = s.cs) (hcl : t.cl = s.cl) (hrun : t.run = s.run) :
    ControlMove s t := ⟨hrun, .kept hcs hcl⟩

theorem controlMove_fail (kind : FailKind) (s : State) : ControlMove s (s.fail kind) := .of_kept rfl rfl rfl

/-- An instruction that pops the data stack first makes the moves of its continuation. -/
theorem withTop_controlMove {s t : State} {k : Word → State → Result} (h : withTop s k = .next t)
    (hk : ∀ v xs, k v { s with ds := xs } = .next t → ControlMove s t) : ControlMove s t := by
  rcases withTop_cases s k with ⟨-, hfail⟩ | ⟨xs, v, -, hpop⟩
  · cases hfail.symm.trans h
    exact controlMove_fail _ s
  · exact hk v xs (hpop.symm.trans h)

theorem pushData_controlMove {v : Word} {s t : State} (h : pushData v s = .next t) : ControlMove s t := by
  rcases pushData_cases v s with ⟨-, hnext⟩ | ⟨-, href⟩
  · cases hnext.symm.trans h
    exact .of_kept rfl rfl rfl
  · cases href.symm.trans h

theorem execPop_controlMove {s t : State} (h : execPop s = .next t) : ControlMove s t :=
  withTop_controlMove h fun v xs hk => by
    split at hk
    · cases hk
      exact ⟨rfl, .pushed v rfl rfl⟩
    · cases hk

theorem execPush_controlMove {s t : State} (h : execPush s = .next t) : ControlMove s t := by
  rcases execPush_cases s with ⟨-, hfail⟩ | ⟨ls, b, ys, v, hcl, hcs, hb, ⟨-, hnext⟩ | ⟨-, href⟩⟩
  · cases hfail.symm.trans h
    exact controlMove_fail _ s
  · cases hnext.symm.trans h
    have hle : b ≤ ys.length := by simpa [hcs, Nat.lt_succ_iff] using hb
    exact ⟨rfl, .popped ls b v hcl hle hcs rfl⟩
  · cases href.symm.trans h

theorem execDup_controlMove {s t : State} (h : execDup s = .next t) : ControlMove s t := by
  unfold execDup at h
  split at h
  · cases h
    exact controlMove_fail _ s
  · exact pushData_controlMove h

theorem execSwap_controlMove {s t : State} (h : execSwap s = .next t) : ControlMove s t := by
  rcases withTopTwo_cases s _ with ⟨-, hfail⟩ | ⟨xs, a, b, -, hnext⟩
  · cases hfail.symm.trans h
    exact controlMove_fail _ s
  · cases hnext.symm.trans h
    exact .of_kept rfl rfl rfl

theorem execCall_controlMove {target : Nat} {s t : State} (h : execCall target s = .next t) : ControlMove s t := by
  rcases execCall_cases target s with ⟨-, -, -, hnext⟩ | ⟨-, href⟩ | ⟨-, -, href⟩ | ⟨-, -, -, href⟩
  · cases hnext.symm.trans h
    exact ⟨rfl, .called s.ip rfl rfl⟩
  all_goals cases href.symm.trans h

theorem execRet_controlMove {s t : State} (h : execRet s = .next t) : ControlMove s t := by
  rcases execRet_cases s with
    ⟨-, hfail⟩ | ⟨ls, hcl, ⟨-, hterm⟩ | ⟨hne, hpop, hbad⟩ | ⟨a, left, hne, hpop, hret⟩⟩
  · cases hfail.symm.trans h
    exact controlMove_fail _ s
  · cases hterm.symm.trans h
    exact ⟨rfl, .terminated rfl⟩
  · cases hbad.symm.trans h
    exact ⟨rfl, .malformed ls hcl hne hpop⟩
  · cases hret.symm.trans h
    exact ⟨rfl, .returned a hcl hne hpop⟩

/-- Every instruction makes one of the moves. -/
theorem exec_controlMove {i : Instr} {s t : State} (h : exec i s = .next t) : ControlMove s t := by
  cases i with
  | nop | goto target =>
    cases h
    exact .of_kept rfl rfl rfl
  | drop | inc | dec | jmpif v target =>
    simp only [exec, execDrop, execInc, execDec, execJmpif] at h
    exact withTop_controlMove h fun w xs hk => by
      cases hk
      exact .of_kept rfl rfl rfl
  | pop => exact execPop_controlMove h
  | push => exact execPush_controlMove h
  | pushval v => exact pushData_controlMove h
  | dup => exact execDup_controlMove h
  | swap => exact execSwap_controlMove h
  | ret => exact execRet_controlMove h
  | call target => exact execCall_controlMove h

/-- Every cycle makes one of the moves (R100). -/
theorem cycle_controlMove {s t : State} (h : cycle s = .next t) : ControlMove s t := by
  rcases cycle_cases s with ⟨k, -, -, hfault⟩ | ⟨op, -, -, hfail⟩ | ⟨i, k, -, -, hexec⟩ | ⟨-, href⟩
  · cases hfault.symm.trans h
    exact .of_kept rfl rfl rfl
  · cases hfail.symm.trans h
    exact .of_kept rfl rfl rfl
  · exact exec_controlMove (s := { s with ip := s.ip + k }) (hexec.symm.trans h)
  · cases href.symm.trans h

/-! ### Every step keeps the frame invariant -/

/-- A host operation on an idle machine leaves it idle, or begins a run and pushes its sentinel (R101, R105). -/
theorem issue_run_cases {c : Command} {s t : State} (hidle : s.run = none) (h : issue c s = .next t) :
    t.run = none ∨ t.cl = s.cl ++ [0] := by
  cases c with
  | loadprogram bytes =>
    simp only [issue, loadprogram] at h
    split at h <;> cases h
    exact .inl hidle
  | setdata words =>
    simp only [issue, setdata] at h
    split at h <;> cases h
    exact .inl hidle
  | reset | halt =>
    cases h
    exact .inl hidle
  | run strict maxsteps =>
    simp only [issue, runEntry] at h
    split at h <;> cases h
    exact .inr rfl
  | step strict => exact .inl ((cycle_controlMove h).1.trans hidle)

/-- A cycle of a run and what the loop does after it keep the frame invariant; a cycle that terminates ends the run. -/
theorem runCycle_keeps_frameInv {r : RunCtl} {s t : State} (hs : Framed s.cs s.cl) (h : runCycle r s = .next t) :
    FrameInv t := by
  obtain ⟨u, hcycle, rfl⟩ := runCycle_next h
  obtain ⟨-, hmove⟩ := cycle_controlMove hcycle
  rcases hmove.framed hs with hterm | hframed
  · exact frameInv_of_idle (by simp [hterm])
  · exact frameInv_iff.2 fun _ => hframed

theorem step_keeps_frameInv (s t : State) (hs : FrameInv s) (h : step s = .next t) : FrameInv t := by
  cases hrun : s.run with
  | some r =>
    have hframed : Framed s.cs s.cl := frameInv_iff.1 hs (by simp [hrun])
    rcases step_run_cases hrun with ⟨-, hend⟩ | ⟨-, -, hspent⟩ | ⟨-, -, hcycle⟩
    · cases hend.symm.trans h
      exact frameInv_of_idle rfl
    · cases hspent.symm.trans h
      exact frameInv_of_idle rfl
    · exact runCycle_keeps_frameInv (by simpa using hframed) (hcycle.symm.trans h)
  | none =>
    rcases step_idle hrun with ⟨-, hstay⟩ | ⟨c, rest, -, hissue⟩
    · cases hstay.symm.trans h
      exact hs
    · rcases issue_run_cases (s := { s with commands := rest }) hrun (hissue.symm.trans h) with hidle | hcl
      · exact frameInv_of_idle hidle
      · exact frameInv_iff.2 fun _ => hcl ▸ framed_sentinel t.cs s.cl

/-- Settles O56: the frame invariant gives R16, holds at reset where no run is in progress, and every step keeps it. -/
theorem runsKeepFrames : Obligations.RunsKeepFrames := by
  have top : ∀ s : State, FrameInv s → s.run.isSome = true →
      s.cl ≠ [] ∧ ∃ b, s.cl.getLast? = some b ∧ b ≤ s.cs.length :=
    fun s hs hrun => (frameInv_iff.1 hs hrun).top_le
  refine ⟨top, fun cfg commands halts k t hk => top t ?_⟩
  exact core_run_keeps step_keeps_frameInv (frameInv_of_idle rfl) hk

/-- Settles O53: each start value is the one `State.reset` is written with. -/
theorem hardwareResetState : Obligations.HardwareResetState :=
  ⟨rfl, rfl, rfl, rfl, rfl⟩

end Sys2Proof.Machine
end

section
/-! Who writes instruction memory (R33): the frame of an instruction and of a cycle, and the one host operation that
writes the memory, `loadprogram`. -/

namespace Sys2Proof.Machine

/-! ### The frame of an instruction -/

/-- `t` differs from `s` in the stacks, `ip`, `status` and the result of the cycle at most: the memory, the parameters,
the run in progress, the strict flag and the host's inputs are as they were. -/
def InstrFrame (s t : State) : Prop :=
  t = { s with ip := t.ip, ds := t.ds, cs := t.cs, cl := t.cl, status := t.status, result := t.result }

theorem InstrFrame.mem_eq {s t : State} (h : InstrFrame s t) : t.mem = s.mem :=
  (congrArg State.mem h).trans rfl

/-- An instruction that pops the data stack first has the frame of its continuation. -/
theorem withTop_instrFrame {s t : State} {k : Word → State → Result} (h : withTop s k = .next t)
    (hk : ∀ v xs, k v { s with ds := xs } = .next t → InstrFrame s t) : InstrFrame s t := by
  rcases withTop_cases s k with ⟨-, hfail⟩ | ⟨xs, v, -, hpop⟩
  · cases hfail.symm.trans h
    rfl
  · exact hk v xs (hpop.symm.trans h)

theorem pushData_instrFrame {v : Word} {s t : State} (h : pushData v s = .next t) : InstrFrame s t := by
  rcases pushData_cases v s with ⟨-, hnext⟩ | ⟨-, href⟩
  · cases hnext.symm.trans h
    rfl
  · cases href.symm.trans h

theorem execPop_instrFrame {s t : State} (h : execPop s = .next t) : InstrFrame s t :=
  withTop_instrFrame h fun v xs hk => by
    split at hk <;> cases hk
    rfl

theorem execPush_instrFrame {s t : State} (h : execPush s = .next t) : InstrFrame s t := by
  rcases execPush_cases s with ⟨-, hfail⟩ | ⟨ls, b, ys, v, -, -, -, ⟨-, hnext⟩ | ⟨-, href⟩⟩
  · cases hfail.symm.trans h
    rfl
  · cases hnext.symm.trans h
    rfl
  · cases href.symm.trans h

theorem execDup_instrFrame {s t : State} (h : execDup s = .next t) : InstrFrame s t := by
  unfold execDup at h
  split at h
  · cases h
    rfl
  · exact pushData_instrFrame h

theorem execSwap_instrFrame {s t : State} (h : execSwap s = .next t) : InstrFrame s t := by
  rcases withTopTwo_cases s _ with ⟨-, hfail⟩ | ⟨xs, a, b, -, hnext⟩
  · cases hfail.symm.trans h
    rfl
  · cases hnext.symm.trans h
    rfl

theorem execCall_instrFrame {target : Nat} {s t : State} (h : execCall target s = .next t) : InstrFrame s t := by
  rcases execCall_cases target s with ⟨-, -, -, hnext⟩ | ⟨-, href⟩ | ⟨-, -, href⟩ | ⟨-, -, -, href⟩
  · cases hnext.symm.trans h
    rfl
  all_goals cases href.symm.trans h

theorem execRet_instrFrame {s t : State} (h : execRet s = .next t) : InstrFrame s t := by
  rcases execRet_cases s with
    ⟨-, hfail⟩ | ⟨ls, -, ⟨-, hterm⟩ | ⟨-, -, hbad⟩ | ⟨a, left, -, -, hret⟩⟩
  · cases hfail.symm.trans h
    rfl
  · cases hterm.symm.trans h
    rfl
  · cases hbad.symm.trans h
    rfl
  · cases hret.symm.trans h
    rfl

/-- Every instruction, whether it completes, terminates or fails, keeps to the frame (R65). -/
theorem exec_instrFrame {i : Instr} {s t : State} (h : exec i s = .next t) : InstrFrame s t := by
  cases i with
  | nop | goto target =>
    cases h
    rfl
  | drop | inc | dec | jmpif v target =>
    simp only [exec, execDrop, execInc, execDec, execJmpif] at h
    exact withTop_instrFrame h fun w xs hk => by
      cases hk
      rfl
  | pop => exact execPop_instrFrame h
  | push => exact execPush_instrFrame h
  | pushval v => exact pushData_instrFrame h
  | dup => exact execDup_instrFrame h
  | swap => exact execSwap_instrFrame h
  | ret => exact execRet_instrFrame h
  | call target => exact execCall_instrFrame h

/-- A cycle adds to its instruction the move of `ip` and the failures of fetch, all within the frame (R100). -/
theorem cycle_instrFrame {s t : State} (h : cycle s = .next t) : InstrFrame s t := by
  rcases cycle_cases s with ⟨k, -, -, hfault⟩ | ⟨op, -, -, hfail⟩ | ⟨i, k, -, -, hexec⟩ | ⟨-, href⟩
  · cases hfault.symm.trans h
    rfl
  · cases hfail.symm.trans h
    rfl
  · exact exec_instrFrame (s := { s with ip := s.ip + k }) (hexec.symm.trans h)
  · cases href.symm.trans h

/-! ### The host operations and the step -/

/-- `loadprogram`, where it is accepted, replaces the memory and nothing else (R102). -/
theorem loadprogram_next {bytes : List Word} {s t : State} (h : loadprogram bytes s = .next t) :
    t = { s with mem := Memory.ofWords bytes } := by
  unfold loadprogram at h
  split at h <;> cases h
  rfl

/-- A host operation leaves the memory, or is a `loadprogram`. -/
theorem issue_mem_cases {c : Command} {s t : State} (h : issue c s = .next t) :
    t.mem = s.mem ∨ ∃ bytes, c = .loadprogram bytes ∧ t = { s with mem := Memory.ofWords bytes } := by
  cases c with
  | loadprogram bytes => exact .inr ⟨bytes, rfl, loadprogram_next h⟩
  | setdata words =>
    simp only [issue, setdata] at h
    split at h <;> cases h
    exact .inl rfl
  | reset | halt =>
    cases h
    exact .inl rfl
  | run strict maxsteps =>
    simp only [issue, runEntry] at h
    split at h <;> cases h
    exact .inl rfl
  | step strict => exact .inl (cycle_instrFrame h).mem_eq

theorem runCycle_mem {r : RunCtl} {s t : State} (h : runCycle r s = .next t) : t.mem = s.mem := by
  obtain ⟨u, hcycle, rfl⟩ := runCycle_next h
  exact (cycle_instrFrame hcycle).mem_eq

/-- A step of a run leaves the memory: it accepts no `loadprogram` (R43). -/
theorem step_mem_of_run {r : RunCtl} {s t : State} (hrun : s.run = some r) (h : step s = .next t) :
    t.mem = s.mem := by
  rcases step_run_cases hrun with ⟨-, hend⟩ | ⟨-, -, hspent⟩ | ⟨-, -, hcycle⟩
  · cases hend.symm.trans h
    exact takeHalt_mem s
  · cases hspent.symm.trans h
    exact takeHalt_mem s
  · exact (runCycle_mem (hcycle.symm.trans h)).trans (takeHalt_mem s)

/-- A step leaves the memory, or accepts a `loadprogram` of an idle machine and makes the memory that of its bytes. -/
theorem step_mem_cases {s t : State} (h : step s = .next t) :
    t.mem = s.mem ∨
      ∃ bytes, s.run = none ∧ s.commands = .loadprogram bytes :: t.commands ∧ t.mem = Memory.ofWords bytes := by
  cases hrun : s.run with
  | some r => exact .inl (step_mem_of_run hrun h)
  | none =>
    rcases step_idle hrun with ⟨-, hstay⟩ | ⟨c, rest, hcommands, hissue⟩
    · cases hstay.symm.trans h
      exact .inl rfl
    · rcases issue_mem_cases (hissue.symm.trans h) with hkept | ⟨bytes, rfl, rfl⟩
      · exact .inl hkept
      · exact .inr ⟨bytes, rfl, hcommands, rfl⟩

/-- Settles O39: an instruction keeps to its frame, which has no memory in it, and the one step that writes
the memory is an accepted `loadprogram`, whose memory reads as its bytes. -/
theorem onlyLoadprogramWritesMemory : Obligations.OnlyLoadprogramWritesMemory := by
  refine ⟨fun i s t h a => by rw [(exec_instrFrame h).mem_eq], fun s t h => ?_⟩
  rcases step_mem_cases h with hkept | ⟨bytes, hidle, hcommands, hloaded⟩
  · exact .inl fun a => by rw [hkept]
  · exact .inr ⟨bytes, hidle, hcommands, fun a => by rw [hloaded, Memory.read_ofWords]⟩

end Sys2Proof.Machine
end

section
/-! What the decoder answers for each opcode Word of the map (R52), and what it makes of the operands of the formats
V, T and VT (R47 to R49). -/

namespace Sys2Proof.Machine

/-! ### The opcode map, one equation per opcode Word -/

variable (cfg : Config) (ops : List Word)

@[simp] theorem decode_opcode_nop : decode cfg (0x0C#8 :: ops) = .instr .nop 1 := rfl
@[simp] theorem decode_opcode_drop : decode cfg (0x01#8 :: ops) = .instr .drop 1 := rfl
@[simp] theorem decode_opcode_pop : decode cfg (0x02#8 :: ops) = .instr .pop 1 := rfl
@[simp] theorem decode_opcode_push : decode cfg (0x03#8 :: ops) = .instr .push 1 := rfl
@[simp] theorem decode_opcode_pushval : decode cfg (0x04#8 :: ops) = decodeValue .pushval ops := rfl
@[simp] theorem decode_opcode_dup : decode cfg (0x05#8 :: ops) = .instr .dup 1 := rfl
@[simp] theorem decode_opcode_swap : decode cfg (0x06#8 :: ops) = .instr .swap 1 := rfl
@[simp] theorem decode_opcode_inc : decode cfg (0x07#8 :: ops) = .instr .inc 1 := rfl
@[simp] theorem decode_opcode_dec : decode cfg (0x08#8 :: ops) = .instr .dec 1 := rfl
@[simp] theorem decode_opcode_jmpif : decode cfg (0x09#8 :: ops) = decodeValueTarget cfg .jmpif ops := rfl
@[simp] theorem decode_opcode_ret : decode cfg (0x0A#8 :: ops) = .instr .ret 1 := rfl
@[simp] theorem decode_opcode_call : decode cfg (0x0B#8 :: ops) = decodeTarget cfg .call ops := rfl
@[simp] theorem decode_opcode_goto : decode cfg (0x10#8 :: ops) = decodeTarget cfg .goto ops := rfl

/-! ### The operands of a format -/

@[simp] theorem decodeValue_cons (mk : Word → Instr) (v : Word) : decodeValue mk (v :: ops) = .instr (mk v) 2 := rfl

variable {cfg ops} {target len : Nat}

/-- Format T: a whole address field after the opcode Word gives the target (R48). -/
theorem decodeTarget_of_streamDecode (mk : Nat → Instr) (h : streamDecode cfg ops = some (target, len)) :
    decodeTarget cfg mk ops = .instr (mk target) (1 + len) := by
  simp [decodeTarget, h]

/-- Format VT: a whole address field after the value Word gives the target (R49). -/
theorem decodeValueTarget_of_streamDecode (mk : Word → Nat → Instr) (v : Word)
    (h : streamDecode cfg ops = some (target, len)) :
    decodeValueTarget cfg mk (v :: ops) = .instr (mk v target) (2 + len) := by
  simp [decodeValueTarget, h]

end Sys2Proof.Machine

namespace Sys2Proof.Machine

/-- Settles O1: the equation of each opcode Word, and for PUSHVAL, JMPIF, CALL and GOTO that of its format. -/
theorem opcodeMapAsTabled : Obligations.OpcodeMapAsTabled := by
  refine ⟨rfl, fun cfg ops => ⟨decode_opcode_nop cfg ops, decode_opcode_drop cfg ops, decode_opcode_pop cfg ops,
    decode_opcode_push cfg ops, fun v => ?pushval, decode_opcode_dup cfg ops, decode_opcode_swap cfg ops,
    decode_opcode_inc cfg ops, decode_opcode_dec cfg ops, fun v target len hfield => ?jmpif,
    decode_opcode_ret cfg ops, fun target len hfield => ⟨?call, ?goto⟩⟩⟩
  case pushval => rw [decode_opcode_pushval, decodeValue_cons]
  case jmpif => rw [decode_opcode_jmpif, decodeValueTarget_of_streamDecode _ v hfield]
  case call => rw [decode_opcode_call, decodeTarget_of_streamDecode _ hfield]
  case goto => rw [decode_opcode_goto, decodeTarget_of_streamDecode _ hfield]

end Sys2Proof.Machine
end

section
/-! The stack instructions (40_stack_ops.md). First what a read of an implicit operand answers once it is known whether
the operand is there, and what a push answers on a stack that has room; then the statements, each made of these. -/

namespace Sys2Proof.Machine

/-! ### The implicit operands -/

variable {s : State}

/-- `if |ds| = 0 then fail StackUnderflow` (R116). -/
theorem withTop_of_ds_nil (k : Word → State → Result) (h : s.ds = []) :
    withTop s k = .next (s.fail .stackUnderflow) := by
  simp [withTop, h]

/-- `v <- ds.pop()` (R7). -/
theorem withTop_of_ds_concat {xs : List Word} {v : Word} (k : Word → State → Result) (h : s.ds = xs ++ [v]) :
    withTop s k = k v { s with ds := xs } := by
  simp [withTop, h]

/-- `if |ds| < 2 then fail StackUnderflow` (R116): the stack is not `xs ++ [a, b]`. -/
theorem withTopTwo_of_length_lt_two (k : Word → Word → State → Result) (h : s.ds.length < 2) :
    withTopTwo s k = .next (s.fail .stackUnderflow) := by
  rcases withTopTwo_cases s k with ⟨-, hfail⟩ | ⟨xs, a, b, hds, -⟩
  · exact hfail
  · simp [hds] at h

/-- `b <- ds.pop(); a <- ds.pop()` (R72): the list `xs ++ [a, b]` is `(xs ++ [a]) ++ [b]`, popped twice. -/
theorem withTopTwo_of_ds_pair {xs : List Word} {a b : Word} (k : Word → Word → State → Result)
    (h : s.ds = xs ++ [a, b]) : withTopTwo s k = k b a { s with ds := xs } := by
  have hpops : s.ds = xs ++ [a] ++ [b] := by simp [h]
  simp only [withTopTwo, hpops, Stack.pop?_push]

/-- `if |cs| <= top(cl) then fail FrameViolation` (R117). -/
theorem withFrameTop_of_length_le {ls : List Nat} {b : Nat} (k : Word → State → Result) (hcl : s.cl = ls ++ [b])
    (hb : s.cs.length ≤ b) : withFrameTop s k = .next (s.fail .frameViolation) := by
  simp [withFrameTop, hcl, hb]

/-- `v <- cs.pop()` within the current frame (R69). -/
theorem withFrameTop_of_lt_length {ls : List Nat} {b : Nat} {ys : List Word} {v : Word} (k : Word → State → Result)
    (hcl : s.cl = ls ++ [b]) (hcs : s.cs = ys ++ [v]) (hb : b < s.cs.length) :
    withFrameTop s k = k v { s with cs := ys } := by
  have hpop : Stack.pop? s.cs = some (v, ys) := Stack.pop?_eq_some.mpr hcs
  simp only [withFrameTop, hcl, Stack.top?_push, Nat.not_le.mpr hb, if_false, hpop]

/-- `ds.push(v)` on a data stack that has room (R7, U7). -/
theorem pushData_of_withinCap (v : Word) (h : withinCap s.cfg.dsCap (s.ds.length + 1) = true) :
    pushData v s = .next { s with ds := s.ds ++ [v], result := some .continued } := by
  simp [pushData, h, Stack.push, State.complete]

/-! ### The instructions -/

section Dispatch

variable (s)

theorem exec_drop : exec .drop s = execDrop s := rfl
theorem exec_pop : exec .pop s = execPop s := rfl
theorem exec_push : exec .push s = execPush s := rfl
theorem exec_pushval (v : Word) : exec (.pushval v) s = execPushval v s := rfl
theorem exec_dup : exec .dup s = execDup s := rfl
theorem exec_swap : exec .swap s = execSwap s := rfl

end Dispatch

/-- The operand of DUP (R71) is missing. -/
theorem execDup_of_ds_nil (h : s.ds = []) : execDup s = .next (s.fail .stackUnderflow) := by
  simp [execDup, h]

/-- The operand of DUP (R71) is read, not popped. -/
theorem execDup_of_ds_concat {xs : List Word} {v : Word} (h : s.ds = xs ++ [v]) : execDup s = pushData v s := by
  simp [execDup, h]

end Sys2Proof.Machine

namespace Sys2Proof.Machine

/-! ### The statements -/

/-- Settles O9: the popped Word is dropped, and nothing is left to do but to complete. -/
theorem dropDiscardsTop : Obligations.DropDiscardsTop := by
  refine ⟨decode_opcode_drop, fun s xs v hds => ?popped, fun s hds => ?missing⟩
  case popped => rw [exec_drop, execDrop, withTop_of_ds_concat _ hds, State.complete]
  case missing => rw [exec_drop, execDrop, withTop_of_ds_nil _ hds, State.fail]

/-- Settles O10: the popped Word goes on the call stack, whose room is tested on its length before the push. -/
theorem popMovesToCallStack : Obligations.PopMovesToCallStack := by
  refine ⟨decode_opcode_pop, fun s xs v hds hroom => ?moved, fun s hds => ?missing⟩
  case moved => rw [exec_pop, execPop, withTop_of_ds_concat _ hds, if_pos hroom, State.complete, Stack.push]
  case missing => rw [exec_pop, execPop, withTop_of_ds_nil _ hds, State.fail]

/-- Settles O11: the Word popped within the frame is pushed on the data stack, which the pop has not changed. -/
theorem pushTakesFromFrame : Obligations.PushTakesFromFrame := by
  refine ⟨decode_opcode_push, fun s ls b ys v hcl hcs hb hroom => ?moved, fun s ls b hcl hb => ?violated⟩
  case moved =>
    have hroom' : withinCap { s with cs := ys }.cfg.dsCap ({ s with cs := ys }.ds.length + 1) = true := hroom
    rw [exec_push, execPush, withFrameTop_of_lt_length _ hcl hcs hb, pushData_of_withinCap v hroom']
  case violated => rw [exec_push, execPush, withFrameTop_of_length_le _ hcl hb, State.fail]

/-- Settles O12: PUSHVAL is the push of its operand, which fetch has read or found missing. -/
theorem pushvalPushesLiteral : Obligations.PushvalPushesLiteral := by
  refine ⟨fun cfg v ops => ?whole, fun cfg => ?cut, fun s v hroom => ?pushed⟩
  case whole => rw [decode_opcode_pushval, decodeValue_cons]
  case cut => rw [decode_opcode_pushval, decodeValue]
  case pushed => rw [exec_pushval, execPushval, pushData_of_withinCap v hroom]

/-- Settles O13: the top Word is pushed again on the stack it stays on. -/
theorem dupDuplicatesTop : Obligations.DupDuplicatesTop := by
  refine ⟨decode_opcode_dup, fun s xs v hds hroom => ?pushed, fun s hds => ?missing⟩
  case pushed =>
    have htwice : s.ds ++ [v] = xs ++ [v, v] := by simp [hds]
    rw [exec_dup, execDup_of_ds_concat hds, pushData_of_withinCap v hroom, htwice]
  case missing => rw [exec_dup, execDup_of_ds_nil hds, State.fail]

/-- Settles O14: the two popped Words are pushed in the order they were popped, which exchanges them. -/
theorem swapExchangesTopTwo : Obligations.SwapExchangesTopTwo := by
  refine ⟨decode_opcode_swap, fun s xs a b hds => ?exchanged, fun s hds => ?missing⟩
  case exchanged =>
    have hpushes : Stack.push (Stack.push xs b) a = xs ++ [b, a] := by simp [Stack.push]
    rw [exec_swap, execSwap, withTopTwo_of_ds_pair _ hds, hpushes, State.complete]
  case missing => rw [exec_swap, execSwap, withTopTwo_of_length_lt_two _ hds, State.fail]

end Sys2Proof.Machine
end

section
/-! The arithmetic instructions (41_arith.md). First the numbers that the wrapping arithmetic on a Word gives, then what
INC and DEC make of the data stack; the statements are made of these. -/

namespace Sys2Proof.Machine

/-! ### The wrapping arithmetic on a Word -/

/-- `wrap8` is the mathematical modulus, of negative numbers too (R6). -/
theorem wrap8_toNat (v : Int) : (wrap8 v).toNat = (v % 256).toNat :=
  BitVec.toNat_ofInt v

/-- `INC: v -> (v + 1) mod 256` (R77). -/
theorem incWord_toNat (v : Word) : (incWord v).toNat = (v.toNat + 1) % 256 := by
  rw [incWord, wrap8_toNat]
  omega

/-- `DEC: v -> (v + 255) mod 256` (R77): modulo 256, taking 1 away is adding 255, which keeps clear of the negative
number below 0. -/
theorem decWord_toNat (v : Word) : (decWord v).toNat = (v.toNat + 255) % 256 := by
  rw [decWord, wrap8_toNat]
  omega

/-! ### The instructions -/

theorem exec_inc (s : State) : exec .inc s = execInc s := rfl
theorem exec_dec (s : State) : exec .dec s = execDec s := rfl

variable {s : State}

/-- INC replaces the top Word and writes nothing else (R75). -/
theorem execInc_of_ds_concat {xs : List Word} {v : Word} (h : s.ds = xs ++ [v]) :
    execInc s = .next { s with ds := xs ++ [incWord v], result := some .continued } := by
  rw [execInc, withTop_of_ds_concat _ h, Stack.push, State.complete]

/-- DEC replaces the top Word and writes nothing else (R76). -/
theorem execDec_of_ds_concat {xs : List Word} {v : Word} (h : s.ds = xs ++ [v]) :
    execDec s = .next { s with ds := xs ++ [decWord v], result := some .continued } := by
  rw [execDec, withTop_of_ds_concat _ h, Stack.push, State.complete]

/-- The operand of INC (R75) is missing. -/
theorem execInc_of_ds_nil (h : s.ds = []) : execInc s = .next (s.fail .stackUnderflow) :=
  withTop_of_ds_nil _ h

/-- The operand of DEC (R76) is missing. -/
theorem execDec_of_ds_nil (h : s.ds = []) : execDec s = .next (s.fail .stackUnderflow) :=
  withTop_of_ds_nil _ h

end Sys2Proof.Machine

namespace Sys2Proof.Machine

/-! ### The statements -/

/-- Settles O15: the Word that INC leaves on top is `incWord v`, whose number is `(v + 1) mod 256`. -/
theorem incWrapsUp : Obligations.IncWrapsUp := by
  refine ⟨decode_opcode_inc, fun s xs v hds => ⟨incWord v, incWord_toNat v, ?replaced⟩, fun s hds => ?missing⟩
  case replaced => rw [exec_inc, execInc_of_ds_concat hds]
  case missing => rw [exec_inc, execInc_of_ds_nil hds, State.fail]

/-- Settles O16: the Word that DEC leaves on top is `decWord v`, whose number is `(v + 255) mod 256`. -/
theorem decWrapsDown : Obligations.DecWrapsDown := by
  refine ⟨decode_opcode_dec, fun s xs v hds => ⟨decWord v, decWord_toNat v, ?replaced⟩, fun s hds => ?missing⟩
  case replaced => rw [exec_dec, execDec_of_ds_concat hds]
  case missing => rw [exec_dec, execDec_of_ds_nil hds, State.fail]

end Sys2Proof.Machine
end

section
/-! The control-transfer instructions that jump (42_control.md R81 to R83). First what their address fields and the one
comparison give, then what each of them does; the statements are made of these. -/

namespace Sys2Proof.Machine

/-! ### The operands of a format, cut short -/

@[simp] theorem decodeValueTarget_nil (cfg : Config) (mk : Word → Nat → Instr) :
    decodeValueTarget cfg mk [] = .cut 1 := rfl

/-- Format VT: where the address field runs out, the cut is after every Word there is (R58). -/
theorem decodeValueTarget_of_streamDecode_none {cfg : Config} {ops : List Word} (mk : Word → Nat → Instr) (v : Word)
    (h : streamDecode cfg ops = none) : decodeValueTarget cfg mk (v :: ops) = .cut (2 + ops.length) := by
  simp [decodeValueTarget, h]

/-! ### The comparison -/

/-- The same number is the same Word (R78). -/
@[simp] theorem sameWord_iff {x v : Word} : sameWord x v = true ↔ x = v := by
  rw [sameWord, beq_iff_eq, BitVec.toNat_inj]

/-! ### The instructions -/

theorem exec_jmpif (v : Word) (target : Nat) (s : State) : exec (.jmpif v target) s = execJmpif v target s := rfl
theorem exec_call (target : Nat) (s : State) : exec (.call target) s = execCall target s := rfl
theorem exec_goto (target : Nat) (s : State) : exec (.goto target) s = execGoto target s := rfl

variable {s : State}

/-- The operand of JMPIF (R81) is missing. -/
theorem execJmpif_of_ds_nil (v : Word) (target : Nat) (h : s.ds = []) :
    execJmpif v target s = .next (s.fail .stackUnderflow) :=
  withTop_of_ds_nil _ h

/-- JMPIF pops whatever the comparison says; the comparison decides `ip` alone (R81). -/
theorem execJmpif_of_ds_concat {xs : List Word} {x : Word} (v : Word) (target : Nat) (h : s.ds = xs ++ [x]) :
    execJmpif v target s =
      .next { s with ds := xs, ip := if x = v then target else s.ip, result := some .continued } := by
  simp only [execJmpif, withTop_of_ds_concat _ h, sameWord_iff, State.complete]

/-- A return address is ENDMARK and a byte at least, so the boundary that CALL makes is 2 or more above the old top
(R93). -/
theorem callPush_length_ge (a : Nat) (cs : List Word) : cs.length + 2 ≤ (callPush a cs).length := by
  rw [callPush_length]
  exact Nat.add_le_add_left (callBytes_length_ge a) _

/-- CALL (R82) where both stacks have room and the new boundary fits: none of its three refusals is left. -/
theorem execCall_of_room (target : Nat) (hcs : withinCap s.cfg.csCap (callPush s.ip s.cs).length = true)
    (hcl : withinCap s.cfg.clCap (s.cl.length + 1) = true)
    (hwidth : addressFits s.cfg (callPush s.ip s.cs).length = true) :
    execCall target s = .next { s with
      cs := callPush s.ip s.cs, cl := s.cl ++ [(callPush s.ip s.cs).length], ip := target
      result := some .continued } := by
  rcases execCall_cases target s with ⟨-, -, -, hnext⟩ | ⟨hfull, -⟩ | ⟨-, hfull, -⟩ | ⟨-, -, hwide, -⟩
  · exact hnext
  · exact absurd hcs (Bool.eq_false_iff.mp hfull)
  · exact absurd hcl (Bool.eq_false_iff.mp hfull)
  · exact absurd hwidth (Bool.eq_false_iff.mp hwide)

end Sys2Proof.Machine

namespace Sys2Proof.Machine

/-! ### The statements -/

/-- Settles O18: fetch reads both operands or is cut short; the popped Word is gone either way, and `ip` is the target
exactly where that Word is the value. -/
theorem jmpifPopsAndCompares : Obligations.JmpifPopsAndCompares := by
  refine ⟨fun cfg v ops target len hfield => ?whole, fun cfg v ops hfield => ?fieldCut, fun cfg => ?valueCut,
    fun s xs v target hds => ?taken, fun s xs x v target hds hne => ?notTaken, fun s v target hds => ?missing⟩
  case whole => rw [decode_opcode_jmpif, decodeValueTarget_of_streamDecode _ v hfield]
  case fieldCut => rw [decode_opcode_jmpif, decodeValueTarget_of_streamDecode_none _ v hfield]
  case valueCut => rw [decode_opcode_jmpif, decodeValueTarget_nil]
  case taken => rw [exec_jmpif, execJmpif_of_ds_concat v target hds, if_pos rfl]
  case notTaken => rw [exec_jmpif, execJmpif_of_ds_concat v target hds, if_neg hne]
  case missing => rw [exec_jmpif, execJmpif_of_ds_nil v target hds, State.fail]

/-- Settles O19: with room for the frame CALL is not refused, and the new boundary is above the return address. -/
theorem callPushesFrame : Obligations.CallPushesFrame := by
  refine ⟨fun cfg ops target len hfield => ?whole,
    fun s target hcs hcl hwidth => ⟨callPush_length_ge s.ip s.cs, ?called⟩⟩
  case whole => rw [decode_opcode_call, decodeTarget_of_streamDecode _ hfield]
  case called => rw [exec_call, execCall_of_room target hcs hcl hwidth]

/-- Settles O20: GOTO has no operand on a stack and no test, so it completes in every state. -/
theorem gotoJumps : Obligations.GotoJumps := by
  refine ⟨fun cfg ops target len hfield => ?whole, fun s target => ?jumped⟩
  case whole => rw [decode_opcode_goto, decodeTarget_of_streamDecode _ hfield]
  case jumped => rw [exec_goto, execGoto, State.complete]

end Sys2Proof.Machine
end

section
/-! The host operation `loadprogram` (44_host_commands.md R102): what it does where the program fits, then the step of an
idle machine that accepts it. -/

namespace Sys2Proof.Machine

variable {s : State} {bytes : List Word}

/-- A program within `MEM_CAP` is accepted (R102, U7). -/
theorem loadprogram_of_withinCap (h : withinCap s.cfg.memCap bytes.length = true) :
    loadprogram bytes s = .next { s with mem := Memory.ofWords bytes } := by
  rw [loadprogram, if_pos h]

/-- An idle machine takes the pending `loadprogram` from the host's operations and performs it at once (R43, R101). -/
theorem step_loadprogram {rest : List Command} (hidle : s.run = none)
    (hcommands : s.commands = .loadprogram bytes :: rest) :
    step s = loadprogram bytes { s with commands := rest } := by
  rw [step_issues hidle hcommands, issue]

end Sys2Proof.Machine

namespace Sys2Proof.Machine

/-- Settles O42: the new memory is that of the bytes, which is canonical, has a cell for each and reads as they stand. -/
theorem loadprogramReplacesMemory : Obligations.LoadprogramReplacesMemory := by
  intro s bytes rest hidle hcommands hfits
  have hfits' : withinCap { s with commands := rest }.cfg.memCap bytes.length = true := hfits
  refine ⟨Memory.ofWords bytes, ?accepted, Memory.ofWords_length bytes, Memory.ofWords_wf bytes,
    Memory.read_ofWords bytes⟩
  case accepted => rw [step_loadprogram hidle hcommands, loadprogram_of_withinCap hfits']

end Sys2Proof.Machine
end

section
/-! How instructions, cycles and runs end (60_exceptions.md): what each instruction needs on the data stack, the ways an
execute has of ending with the `status` and the result each leaves, and from these what can write `status` and what can
end a run. -/

namespace Sys2Proof.Machine

/-! ### The operands on the data stack -/

/-- How many Words the rule of an instruction asks of the data stack before it does anything (R116). -/
def dataOperands : Instr → Nat
  | .drop | .pop | .dup | .inc | .dec | .jmpif _ _ => 1
  | .swap => 2
  | .nop | .push | .pushval _ | .ret | .call _ | .goto _ => 0

/-- Too few Words are none for the six instructions with one operand, and fewer than two for SWAP. -/
theorem length_lt_dataOperands_iff (i : Instr) (ds : List Word) :
    ds.length < dataOperands i ↔
      (ds = [] ∧ (i = .drop ∨ i = .pop ∨ i = .dup ∨ i = .inc ∨ i = .dec ∨ ∃ v target, i = .jmpif v target)) ∨
        (ds.length < 2 ∧ i = .swap) := by
  cases i <;> simp [dataOperands]

/-- With too few Words the instruction takes the failure F1 on the state as it stands (R116). -/
theorem exec_of_length_lt_dataOperands {i : Instr} {s : State} (h : s.ds.length < dataOperands i) :
    exec i s = .next (s.fail .stackUnderflow) := by
  cases i with
  | drop | pop | inc | dec | jmpif v target =>
    simp only [exec, execDrop, execPop, execInc, execDec, execJmpif]
    exact withTop_of_ds_nil _ (by simpa [dataOperands] using h)
  | dup => exact execDup_of_ds_nil (by simpa [dataOperands] using h)
  | swap =>
    rw [exec_swap, execSwap]
    exact withTopTwo_of_length_lt_two _ h
  | nop | push | pushval v | ret | call target | goto target => simp [dataOperands] at h

/-! ### The ways an execute ends -/

/-- Every way that the execute of `i` has of going from `s` to `t`: what it leaves in `status` and as its result, and
what brings about a termination or a stack underflow. -/
inductive ExecEnd (i : Instr) (s t : State) : Prop
  /-- Success without `term` (R65). -/
  | completed (hresult : t.result = some .continued) (hstatus : t.status = s.status)
  /-- RET in the outermost frame with an empty call stack (R84, D10). -/
  | terminated (ls : List Nat) (hret : i = .ret) (hcs : s.cs = []) (hcl : s.cl = ls ++ [0])
      (hnext : t = { s with cl := ls, result := some .terminated })
  /-- F1, for want of operands on the data stack (R116). -/
  | underflowed (hshort : s.ds.length < dataOperands i) (hnext : t = s.fail .stackUnderflow)
  /-- F2 or F4 (R117, R119). -/
  | failed (kind : FailKind) (hkind : kind ≠ .stackUnderflow) (hresult : t.result = some (.failed kind))
      (hstatus : t.status = (s.fail kind).status)

/-- An instruction that pops the data stack first underflows or ends as its continuation does. -/
theorem withTop_execEnd {i : Instr} {s t : State} {k : Word → State → Result} (hi : dataOperands i = 1)
    (h : withTop s k = .next t) (hk : ∀ v xs, k v { s with ds := xs } = .next t → ExecEnd i s t) :
    ExecEnd i s t := by
  rcases withTop_cases s k with ⟨hnil, hfail⟩ | ⟨xs, v, -, hpop⟩
  · cases hfail.symm.trans h
    exact .underflowed (by simp [hnil, hi]) rfl
  · exact hk v xs (hpop.symm.trans h)

/-- A push on the data stack completes where it is not refused. -/
theorem pushData_execEnd {i : Instr} {v : Word} {s t : State} (h : pushData v s = .next t) : ExecEnd i s t := by
  rcases pushData_cases v s with ⟨-, hnext⟩ | ⟨-, href⟩
  · cases hnext.symm.trans h
    exact .completed rfl rfl
  · cases href.symm.trans h

theorem execPop_execEnd {s t : State} (h : execPop s = .next t) : ExecEnd .pop s t :=
  withTop_execEnd rfl h fun v xs hk => by
    split at hk <;> cases hk
    exact .completed rfl rfl

theorem execPush_execEnd {s t : State} (h : execPush s = .next t) : ExecEnd .push s t := by
  rcases execPush_cases s with ⟨-, hfail⟩ | ⟨ls, b, ys, v, -, -, -, ⟨-, hnext⟩ | ⟨-, href⟩⟩
  · cases hfail.symm.trans h
    exact .failed .frameViolation (by decide) rfl rfl
  · cases hnext.symm.trans h
    exact .completed rfl rfl
  · cases href.symm.trans h

theorem execDup_execEnd {s t : State} (h : execDup s = .next t) : ExecEnd .dup s t := by
  rcases List.eq_nil_or_concat s.ds with hnil | ⟨xs, v, hds⟩
  · cases (execDup_of_ds_nil hnil).symm.trans h
    exact .underflowed (by simp [hnil, dataOperands]) rfl
  · rw [List.concat_eq_append] at hds
    exact pushData_execEnd ((execDup_of_ds_concat hds).symm.trans h)

theorem execSwap_execEnd {s t : State} (h : execSwap s = .next t) : ExecEnd .swap s t := by
  rcases withTopTwo_cases s _ with ⟨hshort, hfail⟩ | ⟨xs, a, b, -, hnext⟩
  · cases hfail.symm.trans h
    exact .underflowed hshort rfl
  · cases hnext.symm.trans h
    exact .completed rfl rfl

theorem execCall_execEnd {target : Nat} {s t : State} (h : execCall target s = .next t) :
    ExecEnd (.call target) s t := by
  rcases execCall_cases target s with ⟨-, -, -, hnext⟩ | ⟨-, href⟩ | ⟨-, -, href⟩ | ⟨-, -, -, href⟩
  · cases hnext.symm.trans h
    exact .completed rfl rfl
  all_goals cases href.symm.trans h

theorem execRet_execEnd {s t : State} (h : execRet s = .next t) : ExecEnd .ret s t := by
  rcases execRet_cases s with
    ⟨-, hfail⟩ | ⟨ls, hcl, ⟨hcs, hterm⟩ | ⟨-, -, hbad⟩ | ⟨a, left, -, -, hret⟩⟩
  · cases hfail.symm.trans h
    exact .failed .frameViolation (by decide) rfl rfl
  · cases hterm.symm.trans h
    exact .terminated ls rfl hcs (by simpa [hcs] using hcl) rfl
  · cases hbad.symm.trans h
    exact .failed .malformedAddress (by decide) rfl rfl
  · cases hret.symm.trans h
    exact .completed rfl rfl

/-- Every instruction that is not refused ends in one of the ways (R65). -/
theorem exec_execEnd {i : Instr} {s t : State} (h : exec i s = .next t) : ExecEnd i s t := by
  cases i with
  | nop | goto target =>
    cases h
    exact .completed rfl rfl
  | drop | inc | dec | jmpif v target =>
    simp only [exec, execDrop, execInc, execDec, execJmpif] at h
    exact withTop_execEnd rfl h fun w xs hk => by
      cases hk
      exact .completed rfl rfl
  | pop => exact execPop_execEnd h
  | push => exact execPush_execEnd h
  | pushval v => exact pushData_execEnd h
  | dup => exact execDup_execEnd h
  | swap => exact execSwap_execEnd h
  | ret => exact execRet_execEnd h
  | call target => exact execCall_execEnd h

/-- No instruction takes F1 on a data stack that holds what it asks for. -/
theorem length_lt_dataOperands_of_underflow {i : Instr} {s t : State} (h : exec i s = .next t)
    (hresult : t.result = some (.failed .stackUnderflow)) : s.ds.length < dataOperands i := by
  cases exec_execEnd h with
  | completed hcont _ => simp [hcont] at hresult
  | terminated ls _ _ _ hnext => simp [hnext] at hresult
  | underflowed hshort _ => exact hshort
  | failed kind hkind hfailed _ =>
    rw [hfailed] at hresult
    cases hresult
    exact absurd rfl hkind

/-- Taking a failure writes no other value to `status` than `error` (R120). -/
theorem State.fail_status_kept_or_error (kind : FailKind) (s : State) :
    (s.fail kind).status = s.status ∨ (s.fail kind).status = .error := by
  rw [State.fail_status]
  split
  · exact .inr rfl
  · exact .inl rfl

/-- An instruction writes no other value to `status` than `error` (R120). -/
theorem ExecEnd.status_kept_or_error {i : Instr} {s t : State} (e : ExecEnd i s t) :
    t.status = s.status ∨ t.status = .error := by
  cases e with
  | completed _ hstatus => exact .inl hstatus
  | terminated ls _ _ _ hnext => exact .inl (by rw [hnext])
  | underflowed _ hnext =>
    rw [hnext]
    exact State.fail_status_kept_or_error .stackUnderflow s
  | failed kind _ _ hstatus =>
    rw [hstatus]
    exact State.fail_status_kept_or_error kind s

/-- RET in the outermost frame with an empty call stack terminates (R84, D10). -/
theorem execRet_of_outermost {s : State} {ls : List Nat} (hcl : s.cl = ls ++ [0]) (hcs : s.cs = []) :
    execRet s = .next { s with cl := ls, result := some .terminated } := by
  simp [execRet, hcl, hcs, State.terminate]

/-! ### The ways a cycle ends -/

/-- A cycle whose fetch gives an instruction is the execute of it, with `ip` just past it (R100). -/
theorem cycle_of_fetch_instr {s : State} {i : Instr} {k : Nat} (hfetch : fetch s = .instr i k)
    (hfits : ipFits s.cfg s.ip k = true) : cycle s = exec i { s with ip := s.ip + k } := by
  simp [cycle, hfetch, hfits]

/-- A cycle writes no other value to `status` than `error` (R120, R121). -/
theorem cycle_status_kept_or_error {s t : State} (h : cycle s = .next t) :
    t.status = s.status ∨ t.status = .error := by
  rcases cycle_cases s with ⟨k, -, -, hfault⟩ | ⟨op, -, -, hfail⟩ | ⟨i, k, -, -, hexec⟩ | ⟨-, href⟩
  · cases hfault.symm.trans h
    exact .inr rfl
  · cases hfail.symm.trans h
    exact State.fail_status_kept_or_error .invalidOpcode { s with ip := s.ip + 1 }
  · exact (exec_execEnd (hexec.symm.trans h)).status_kept_or_error
  · cases href.symm.trans h

/-- A cycle that terminates has executed a RET in the outermost frame with an empty call stack (R124). -/
theorem cycle_terminated {s t : State} (h : cycle s = .next t) (hterm : t.result = some .terminated) :
    s.cs = [] ∧ (∃ len, fetch s = .instr .ret len) ∧ ∃ ls, s.cl = ls ++ [0] ∧ t.cl = ls := by
  rcases cycle_cases s with ⟨k, -, -, hfault⟩ | ⟨op, -, -, hfail⟩ | ⟨i, k, hfetch, -, hexec⟩ | ⟨-, href⟩
  · cases hfault.symm.trans h
    simp at hterm
  · cases hfail.symm.trans h
    simp at hterm
  · cases exec_execEnd (hexec.symm.trans h) with
    | completed hresult _ => simp [hresult] at hterm
    | terminated ls hret hcs hcl hnext =>
      subst hret
      exact ⟨hcs, ⟨k, hfetch⟩, ls, hcl, by rw [hnext]⟩
    | underflowed _ hnext => simp [hnext] at hterm
    | failed kind _ hresult _ => simp [hresult] at hterm
  · cases href.symm.trans h

/-! ### The step boundary of a run -/

variable {s : State} {r : RunCtl}

/-- A budget is spent where it is finite and reached; the unbounded one never is (R106, R122). -/
theorem RunCtl.spent_iff : r.spent = true ↔ ∃ m, r.maxsteps = some m ∧ m ≤ r.steps := by
  cases hmax : r.maxsteps <;> simp [RunCtl.spent, hmax]

/-- A pending halt takes effect at the boundary (R108). -/
theorem takeHalt_of_halt {later : List Bool} (h : s.halts = true :: later) :
    takeHalt s = { s with halts := later, status := .user } := by
  simp [takeHalt, h, State.halt]

/-- Where `status` is `ok` after the boundary has looked for a halt, it was so before and no halt was pending. -/
theorem ok_and_noHalt_of_takeHalt_ok (h : (takeHalt s).status = .ok) : s.status = .ok ∧ NoHaltNow s := by
  rw [takeHalt_status] at h
  split at h
  case isTrue => cases h
  case isFalse hhalt => exact ⟨h, hhalt⟩

/-- A `status` that is not `ok` once a halt has taken effect ends the run (R106). -/
theorem step_of_takeHalt_not_ok (hrun : s.run = some r) (h : (takeHalt s).status ≠ .ok) :
    step s = .next { takeHalt s with run := none } := by
  rcases step_run_cases hrun with ⟨-, hend⟩ | ⟨hok, -, -⟩ | ⟨hok, -, -⟩
  · exact hend
  · exact absurd hok h
  · exact absurd hok h

/-- A spent budget ends a run whose `status` is `ok` and which no halt meets (R122). -/
theorem step_of_spent (hrun : s.run = some r) (hok : s.status = .ok) (hnoHalt : NoHaltNow s) (hspent : r.spent = true) :
    step s = .next { s with halts := s.halts.tail, status := .maxsteps, run := none } := by
  have htake := takeHalt_of_noHalt hnoHalt
  rcases step_run_cases hrun with ⟨hbad, -⟩ | ⟨-, -, hend⟩ | ⟨-, hleft, -⟩
  · exact absurd (by rw [htake]; exact hok) hbad
  · rw [hend, htake]
  · simp [hspent] at hleft

/-! ### Who sets `status` to `maxsteps` -/

/-- No operation of the host sets `status` to `maxsteps`, the host's `step` among them (R122). -/
theorem issue_status_ne_maxsteps {c : Command} {t : State} (hs : s.status ≠ .maxsteps) (h : issue c s = .next t) :
    t.status ≠ .maxsteps := by
  cases c with
  | loadprogram bytes =>
    rw [loadprogram_next h]
    exact hs
  | setdata words =>
    simp only [issue, setdata] at h
    split at h <;> cases h
    exact hs
  | reset =>
    cases h
    dsimp only
    split
    · decide
    · exact hs
  | run strict maxsteps =>
    simp only [issue, runEntry] at h
    split at h <;> cases h
    exact hs
  | step strict =>
    rcases cycle_status_kept_or_error h with hkept | herror
    · rw [hkept]
      exact hs
    · simp [herror]
  | halt =>
    cases h
    simp

/-- No cycle of a run sets `status` to `maxsteps`. -/
theorem runCycle_status_ne_maxsteps {t : State} (hs : s.status ≠ .maxsteps) (h : runCycle r s = .next t) :
    t.status ≠ .maxsteps := by
  obtain ⟨u, hcycle, rfl⟩ := runCycle_next h
  rw [afterCycle_status]
  rcases cycle_status_kept_or_error hcycle with hkept | herror
  · rw [hkept]
    exact hs
  · simp [herror]

/-- The one step that sets `status` to `maxsteps` is the boundary of a run whose budget is spent (R122). -/
theorem step_sets_maxsteps {t : State} (h : step s = .next t) (ht : t.status = .maxsteps)
    (hs : s.status ≠ .maxsteps) : ∃ r, s.run = some r ∧ r.spent = true := by
  cases hrun : s.run with
  | some r =>
    have htake : (takeHalt s).status ≠ .maxsteps := by
      rw [takeHalt_status]
      split
      · decide
      · exact hs
    rcases step_run_cases hrun with ⟨-, hend⟩ | ⟨-, hspent, -⟩ | ⟨-, -, hcycle⟩
    · cases hend.symm.trans h
      exact absurd ht htake
    · exact ⟨r, rfl, hspent⟩
    · exact absurd ht (runCycle_status_ne_maxsteps htake (hcycle.symm.trans h))
  | none =>
    rcases step_idle hrun with ⟨-, hstay⟩ | ⟨c, rest, -, hissue⟩
    · cases hstay.symm.trans h
      exact absurd ht hs
    · exact absurd ht (issue_status_ne_maxsteps (s := { s with commands := rest }) hs (hissue.symm.trans h))

/-! ### How a run ends with `status = ok` -/

/-- A step that ends a run with `status = ok` found it `ok` with no halt pending, and its cycle terminated: the other
two ends of a run leave a `status` that is not `ok` (R106). -/
theorem step_ends_run_ok {t : State} (hrun : s.run = some r) (h : step s = .next t) (hend : t.run = none)
    (hok : t.status = .ok) :
    s.status = .ok ∧ ∃ u, cycle { s with halts := s.halts.tail } = .next u ∧ u.result = some .terminated ∧
      t = afterCycle r u := by
  rcases step_run_cases hrun with ⟨hbad, hstop⟩ | ⟨-, -, hspent⟩ | ⟨htake, -, hcycle⟩
  · cases hstop.symm.trans h
    exact absurd hok hbad
  · cases hspent.symm.trans h
    cases hok
  · obtain ⟨hsok, hnoHalt⟩ := ok_and_noHalt_of_takeHalt_ok htake
    obtain ⟨u, hu, rfl⟩ := runCycle_next (hcycle.symm.trans h)
    rw [takeHalt_of_noHalt hnoHalt] at hu
    exact ⟨hsok, u, hu, by simpa using hend, rfl⟩

end Sys2Proof.Machine

namespace Sys2Proof.Machine

/-! ### The statements -/

/-- Settles O25: what the statement lists is a data stack shorter than the instruction asks for, which makes it fail so,
and nothing else does. -/
theorem stackUnderflowExactly : Obligations.StackUnderflowExactly := by
  refine ⟨fun i s hlisted => ?fails, fun i s t hnext hresult => ?only⟩
  case fails => rw [exec_of_length_lt_dataOperands ((length_lt_dataOperands_iff i s.ds).mpr hlisted), State.fail]
  case only => exact (length_lt_dataOperands_iff i s.ds).mp (length_lt_dataOperands_of_underflow hnext hresult)

/-- Settles O46: the idle machine performs the `halt` it accepts; at a boundary the `status` that a pending one sets is
not `ok`, so the run ends there. -/
theorem haltStopsAtBoundary : Obligations.HaltStopsAtBoundary := by
  refine ⟨fun s rest hidle hcommands => ?idle, fun s r later hrun hhalts => ?inRun⟩
  case idle => rw [step_issues hidle hcommands, issue, State.halt]
  case inRun =>
    have htake := takeHalt_of_halt hhalts
    rw [step_of_takeHalt_not_ok hrun (by simp [htake]), htake]

/-- Settles O47: the boundary tests the budget after the halt and `status`; no cycle and no operation of the host writes
`maxsteps`. -/
theorem budgetExhaustionEndsRun : Obligations.BudgetExhaustionEndsRun := by
  refine ⟨fun s r m hrun hmax hspent hok hnoHalt => ?ends, fun s t hnext ht hs => ?only⟩
  case ends => exact step_of_spent hrun hok hnoHalt (RunCtl.spent_iff.mpr ⟨m, hmax, hspent⟩)
  case only =>
    obtain ⟨r, hrun, hspent⟩ := step_sets_maxsteps hnext ht hs
    obtain ⟨m, hmax, hle⟩ := RunCtl.spent_iff.mp hspent
    exact ⟨r, m, hrun, hmax, hle⟩

/-- Settles O49: the cycle of the step is that RET, whose `terminated` ends the run; and a run that ends with
`status = ok` has had a cycle that terminated, which only that RET does. -/
theorem onlyRetEndsRunOk : Obligations.OnlyRetEndsRunOk := by
  refine ⟨fun s r ls len hrun hok hnoHalt hleft hfetch hfits hcl hcs => ?ends, fun s t r hrun hnext hend hok => ?only⟩
  case ends =>
    have hcycle : cycle { s with halts := s.halts.tail } = .next { s with
        halts := s.halts.tail, ip := s.ip + len, cl := ls, result := some .terminated } :=
      (cycle_of_fetch_instr (s := { s with halts := s.halts.tail }) hfetch hfits).trans
        (execRet_of_outermost (s := { s with halts := s.halts.tail, ip := s.ip + len }) hcl hcs)
    rw [step_runs_cycle hrun hok hnoHalt hleft, runCycle, hcycle]
    simp [afterCycle]
  case only =>
    obtain ⟨hsok, u, hcycle, hterm, rfl⟩ := step_ends_run_ok hrun hnext hend hok
    obtain ⟨hcs, hret, ls, hcl, hucl⟩ := cycle_terminated hcycle hterm
    exact ⟨hsok, hcs, hret, ls, hcl, hucl⟩

end Sys2Proof.Machine
end

section
/-! The `reset` command (44_host_commands.md R104, 70_reset_and_hazards.md R136). -/

namespace Sys2Proof.Machine

/-- Under the default reading of C9 the `reset` command leaves `status` alone (R104, D17). -/
theorem resetCommand_of_keeps_status {s : State} (h : s.cfg.resetClearsStatus = false) :
    resetCommand s = .next { s with ds := [], cs := [], cl := [], ip := 0 } := by
  simp [resetCommand, h]

/-- Settles O44: the idle machine performs the `reset` it accepts, which leaves `status` to the parameter. -/
theorem resetCommandKeepsMemoryAndStatus : Obligations.ResetCommandKeepsMemoryAndStatus := by
  intro s rest hidle hcommands hkeeps
  have hkeeps' : { s with commands := rest }.cfg.resetClearsStatus = false := hkeeps
  rw [step_issues hidle hcommands, issue, resetCommand_of_keeps_status hkeeps']

end Sys2Proof.Machine
end

section
/-! Bounded execution (70_reset_and_hazards.md R146). With the unbounded sizes every cycle takes a next state; a step that
leaves a run in progress counts its cycle, and one that finds the budget spent performs none. So the steps that are left
are at most the budget that is left and one boundary more. A run without a budget ends where `status` or a termination ends
it, and what a cycle leaves in `status` says what made it terminal. -/

namespace Sys2Proof.Machine

variable {s t : State} {r : RunCtl}

/-! ### With the unbounded sizes nothing is refused -/

theorem withTop_completes {k : Word → State → Result} (hk : ∀ v xs, ∃ t, k v { s with ds := xs } = .next t) :
    ∃ t, withTop s k = .next t := by
  rcases withTop_cases s k with ⟨-, hfail⟩ | ⟨xs, v, -, hpop⟩
  · exact ⟨_, hfail⟩
  · rw [hpop]
    exact hk v xs

theorem pushData_completes (v : Word) (h : s.cfg.dsCap = none) : ∃ t, pushData v s = .next t :=
  ⟨_, pushData_of_withinCap v (by rw [h, withinCap_none])⟩

theorem execPop_completes (h : s.cfg.csCap = none) : ∃ t, execPop s = .next t :=
  withTop_completes fun v xs => ⟨_, if_pos (by rw [h, withinCap_none])⟩

theorem execPush_completes (h : s.cfg.dsCap = none) : ∃ t, execPush s = .next t := by
  rcases execPush_cases s with ⟨-, hfail⟩ | ⟨ls, b, ys, v, -, -, -, ⟨-, hnext⟩ | ⟨hfull, -⟩⟩
  · exact ⟨_, hfail⟩
  · exact ⟨_, hnext⟩
  · simp [h] at hfull

theorem execDup_completes (h : s.cfg.dsCap = none) : ∃ t, execDup s = .next t := by
  rcases List.eq_nil_or_concat s.ds with hnil | ⟨xs, v, hds⟩
  · exact ⟨_, execDup_of_ds_nil hnil⟩
  · rw [List.concat_eq_append] at hds
    rw [execDup_of_ds_concat hds]
    exact pushData_completes v h

theorem execSwap_completes (s : State) : ∃ t, execSwap s = .next t := by
  rcases withTopTwo_cases s _ with ⟨-, hfail⟩ | ⟨xs, a, b, -, hnext⟩
  · exact ⟨_, hfail⟩
  · exact ⟨_, hnext⟩

theorem execCall_completes (target : Nat) (h : Unbounded s.cfg) : ∃ t, execCall target s = .next t := by
  obtain ⟨haw, -, -, hcsCap, hclCap⟩ := h
  exact ⟨_, execCall_of_room target (by rw [hcsCap, withinCap_none]) (by rw [hclCap, withinCap_none])
    (addressFits_unbounded haw _)⟩

theorem execRet_completes (s : State) : ∃ t, execRet s = .next t := by
  rcases execRet_cases s with ⟨-, hfail⟩ | ⟨ls, -, ⟨-, hterm⟩ | ⟨-, -, hbad⟩ | ⟨a, left, -, -, hret⟩⟩
  · exact ⟨_, hfail⟩
  · exact ⟨_, hterm⟩
  · exact ⟨_, hbad⟩
  · exact ⟨_, hret⟩

/-- Every instruction takes a next state where no size is finite (U7). -/
theorem exec_completes (i : Instr) (h : Unbounded s.cfg) : ∃ t, exec i s = .next t := by
  have ⟨_, _, hdsCap, hcsCap, _⟩ := h
  cases i with
  | nop | goto target => exact ⟨_, rfl⟩
  | drop | inc | dec | jmpif v target =>
    simp only [exec, execDrop, execInc, execDec, execJmpif]
    exact withTop_completes fun w xs => ⟨_, rfl⟩
  | pop => exact execPop_completes hcsCap
  | push => exact execPush_completes hdsCap
  | pushval v => exact pushData_completes v hdsCap
  | dup => exact execDup_completes hdsCap
  | swap => exact execSwap_completes s
  | ret => exact execRet_completes s
  | call target => exact execCall_completes target h

/-- Every cycle takes a next state where no size is finite (U3, U7). -/
theorem cycle_completes (h : Unbounded s.cfg) : ∃ t, cycle s = .next t := by
  rcases cycle_cases s with ⟨k, -, -, hfault⟩ | ⟨op, -, -, hfail⟩ | ⟨i, k, -, -, hexec⟩ | ⟨haw, -⟩
  · exact ⟨_, hfault⟩
  · exact ⟨_, hfail⟩
  · rw [hexec]
    exact exec_completes i h
  · exact absurd h.1 haw

/-- Every step of a run takes a next state where no size is finite. -/
theorem step_run_completes (hrun : s.run = some r) (h : Unbounded s.cfg) : ∃ t, step s = .next t := by
  rcases step_run_cases hrun with ⟨-, hend⟩ | ⟨-, -, hspent⟩ | ⟨-, -, hcycle⟩
  · exact ⟨_, hend⟩
  · exact ⟨_, hspent⟩
  · have htake : Unbounded (takeHalt s).cfg := by rwa [takeHalt_cfg]
    obtain ⟨u, hu⟩ := cycle_completes htake
    exact ⟨afterCycle r u, by rw [hcycle, runCycle, hu]⟩

/-! ### What a step leaves of a run -/

theorem InstrFrame.cfg_eq (h : InstrFrame s t) : t.cfg = s.cfg :=
  (congrArg State.cfg h).trans rfl

/-- A boundary's look for a halt writes the list of halts and `status` (R108). -/
theorem takeHalt_eq (s : State) : takeHalt s = { s with halts := s.halts.tail, status := (takeHalt s).status } := by
  unfold takeHalt
  split <;> rfl

/-- A step of a run writes no parameter (R5). -/
theorem step_run_cfg (hrun : s.run = some r) (h : step s = .next t) : t.cfg = s.cfg := by
  rcases step_run_cases hrun with ⟨-, hend⟩ | ⟨-, -, hspent⟩ | ⟨-, -, hcycle⟩
  · cases hend.symm.trans h
    exact takeHalt_cfg s
  · cases hspent.symm.trans h
    exact takeHalt_cfg s
  · obtain ⟨u, hu, rfl⟩ := runCycle_next (hcycle.symm.trans h)
    rw [afterCycle_cfg, (cycle_instrFrame hu).cfg_eq, takeHalt_cfg]

/-- A step that leaves the run in progress found budget left and has counted one cycle (R106). -/
theorem step_run_counts {r' : RunCtl} (hrun : s.run = some r) (h : step s = .next t) (ht : t.run = some r') :
    r.spent = false ∧ r' = { r with steps := r.steps + 1 } := by
  rcases step_run_cases hrun with ⟨-, hend⟩ | ⟨-, -, hspent⟩ | ⟨-, hleft, hcycle⟩
  · cases hend.symm.trans h
    cases ht
  · cases hspent.symm.trans h
    cases ht
  · obtain ⟨u, -, rfl⟩ := runCycle_next (hcycle.symm.trans h)
    rw [afterCycle_run] at ht
    split at ht <;> cases ht
    exact ⟨hleft, rfl⟩

/-- In a run with the budget `m` the count that such a step leaves is not above `m`. -/
theorem step_run_counts_within {r' : RunCtl} {m : Nat} (hrun : s.run = some r) (hmax : r.maxsteps = some m)
    (h : step s = .next t) (ht : t.run = some r') :
    r'.maxsteps = some m ∧ r'.steps = r.steps + 1 ∧ r'.steps ≤ m := by
  obtain ⟨hleft, rfl⟩ := step_run_counts hrun h ht
  have hlt : r.steps < m := by simpa [RunCtl.spent, hmax] using hleft
  exact ⟨hmax, rfl, hlt⟩

/-- A step that finds the budget spent performs no cycle: a halt may write `status`, and the run is over (R122). -/
theorem step_run_of_spent (hrun : s.run = some r) (hspent : r.spent = true) (h : step s = .next t) :
    t = { s with halts := s.halts.tail, status := t.status, run := none } := by
  rcases step_run_cases hrun with ⟨-, hend⟩ | ⟨-, -, hend⟩ | ⟨-, hleft, -⟩
  · cases hend.symm.trans h
    rw [takeHalt_eq]
  · cases hend.symm.trans h
    rw [takeHalt_eq]
  · simp [hspent] at hleft

/-- A run with `n` cycles of its budget left is over after at most `n + 1` boundaries: each but the last has counted a
cycle. -/
theorem run_over_within_budget {m n : Nat} (hrun : s.run = some r) (hmax : r.maxsteps = some m)
    (hunbounded : Unbounded s.cfg) (hn : m - r.steps = n) :
    ∃ j t, j ≤ n + 1 ∧ Host.Core.run Sys2Proof.core j s = .next t ∧ State.run t = none := by
  induction n generalizing s r with
  | zero =>
    obtain ⟨t, ht⟩ := step_run_completes hrun hunbounded
    refine ⟨1, t, le_rfl, core_run_next ht 0, ?_⟩
    rw [step_run_of_spent hrun (RunCtl.spent_iff.mpr ⟨m, hmax, by omega⟩) ht]
  | succ n ih =>
    obtain ⟨t, ht⟩ := step_run_completes hrun hunbounded
    cases hrun' : t.run with
    | none => exact ⟨1, t, by omega, core_run_next ht 0, hrun'⟩
    | some r' =>
      obtain ⟨hmax', hcount, -⟩ := step_run_counts_within hrun hmax ht hrun'
      obtain ⟨j, v, hj, hv, hover⟩ := ih hrun' hmax' (by rwa [step_run_cfg hrun ht]) (by omega)
      exact ⟨j + 1, v, by omega, (core_run_next ht j).trans hv, hover⟩

/-! ### What makes `status` terminal -/

/-- Taking a failure writes `status` under STRICT only (R120). -/
theorem State.fail_status_kept_or_strict (kind : FailKind) (s : State) :
    (s.fail kind).status = s.status ∨ s.strict = true := by
  rw [State.fail_status]
  split
  case isTrue hstrict => exact .inr hstrict
  case isFalse => exact .inl rfl

/-- An instruction leaves `status`, or fails under STRICT (R120). -/
theorem ExecEnd.status_kept_or_strict_failure {i : Instr} (e : ExecEnd i s t) :
    t.status = s.status ∨ (s.strict = true ∧ ∃ k, t.result = some (.failed k)) := by
  cases e with
  | completed _ hstatus => exact .inl hstatus
  | terminated ls _ _ _ hnext => exact .inl (by rw [hnext])
  | underflowed _ hnext =>
    rw [hnext]
    exact (State.fail_status_kept_or_strict .stackUnderflow s).imp_right fun hstrict => ⟨hstrict, _, rfl⟩
  | failed kind _ hresult hstatus =>
    rw [hstatus]
    exact (State.fail_status_kept_or_strict kind s).imp_right fun hstrict => ⟨hstrict, kind, hresult⟩

/-- A cycle leaves `status`, or faults at fetch, or fails under STRICT (R120, R121). -/
theorem cycle_status_cases (h : cycle s = .next t) :
    t.status = s.status ∨ t.result = some .faulted ∨ (s.strict = true ∧ ∃ k, t.result = some (.failed k)) := by
  rcases cycle_cases s with ⟨k, -, -, hfault⟩ | ⟨op, -, -, hfail⟩ | ⟨i, k, -, -, hexec⟩ | ⟨-, href⟩
  · cases hfault.symm.trans h
    exact .inr (.inl rfl)
  · cases hfail.symm.trans h
    exact (State.fail_status_kept_or_strict .invalidOpcode { s with ip := s.ip + 1 }).imp_right
      fun hstrict => .inr ⟨hstrict, _, rfl⟩
  · exact (exec_execEnd (hexec.symm.trans h)).status_kept_or_strict_failure.imp_right .inr
  · cases href.symm.trans h

/-- A cycle that terminates leaves `status` (R124). -/
theorem cycle_terminated_status (h : cycle s = .next t) (hterm : t.result = some .terminated) :
    t.status = s.status := by
  rcases cycle_status_cases h with hkept | hfaulted | ⟨-, k, hfailed⟩
  · exact hkept
  · simp [hterm] at hfaulted
  · simp [hterm] at hfailed

/-- Where the boundary finds a `status` that is not `ok`, it was so before or a halt was pending. -/
theorem not_ok_or_halt_of_takeHalt_not_ok (h : (takeHalt s).status ≠ .ok) :
    s.status ≠ .ok ∨ s.halts.head? = some true := by
  rw [takeHalt_status] at h
  split at h
  case isTrue hhalt => exact .inr hhalt
  case isFalse => exact .inl h

/-- What ends a run whose budget is not spent: a termination with `status = ok`, a terminal `status`, or a halt (R106). -/
theorem step_ends_unspent_run (hrun : s.run = some r) (hleft : r.spent = false) (h : step s = .next t)
    (hend : t.run = none) :
    (t.result = some .terminated ∧ t.status = .ok) ∨ s.status ≠ .ok ∨ s.halts.head? = some true := by
  rcases step_run_cases hrun with ⟨hbad, -⟩ | ⟨-, hspent, -⟩ | ⟨hok, -, hcycle⟩
  · exact .inr (not_ok_or_halt_of_takeHalt_not_ok hbad)
  · simp [hleft] at hspent
  · obtain ⟨u, hu, rfl⟩ := runCycle_next (hcycle.symm.trans h)
    have hterm : u.result = some .terminated := by simpa using hend
    exact .inl ⟨hterm, (cycle_terminated_status hu hterm).trans hok⟩

/-- What makes `status` terminal in a run whose budget is not spent: a halt, a fetch fault, or a failure under STRICT. -/
theorem step_makes_status_terminal (hrun : s.run = some r) (hleft : r.spent = false) (h : step s = .next t)
    (hok : s.status = .ok) (ht : t.status ≠ .ok) :
    s.halts.head? = some true ∨ t.result = some .faulted ∨
      (s.strict = true ∧ ∃ k, t.result = some (.failed k)) := by
  rcases step_run_cases hrun with ⟨hbad, -⟩ | ⟨-, hspent, -⟩ | ⟨htake, -, hcycle⟩
  · exact .inl ((not_ok_or_halt_of_takeHalt_not_ok hbad).resolve_left (absurd hok))
  · simp [hleft] at hspent
  · obtain ⟨u, hu, rfl⟩ := runCycle_next (hcycle.symm.trans h)
    have hcauses := (cycle_status_cases hu).resolve_left fun hkept => ht (hkept.trans htake)
    rw [takeHalt_strict] at hcauses
    exact .inr hcauses

end Sys2Proof.Machine

namespace Sys2Proof.Machine

/-- Settles O52: the bound by induction on the budget left, the count of a step, the boundary that finds the budget
spent, and the two sides of a run without one, whose budget never is. -/
theorem boundedExecution : Obligations.BoundedExecution := by
  refine ⟨fun s r m hrun hmax hunbounded => ⟨?bounded, ?counted⟩, fun s t r m hrun hmax hle h => ?spent,
    fun s t r hrun hmax h => ?unbudgeted⟩
  case bounded => exact run_over_within_budget hrun hmax hunbounded rfl
  case counted => exact fun t r' h ht => step_run_counts_within hrun hmax h ht
  case spent => exact step_run_of_spent hrun (RunCtl.spent_iff.mpr ⟨m, hmax, hle⟩) h
  case unbudgeted =>
    have hleft : r.spent = false := by simp [RunCtl.spent, hmax]
    exact ⟨step_ends_unspent_run hrun hleft h, step_makes_status_terminal hrun hleft h⟩

end Sys2Proof.Machine
end

section
/-! The encoding (30_encoding.md, 43_address_codec.md section 1). First the bytes of an address read one by one; then
the address field, whose decoder and encoder undo each other; then the instructions, format by format. -/

namespace Sys2Proof.Machine

/-! ### The bytes of an address, one by one -/

theorem noMark_leBytes_iff {a : Nat} : NoMark (leBytes a) ↔ ∀ i, i < nbytes a → byteAt a i ≠ endmark := by
  simp [NoMark, leBytes]

/-- Byte 0 of an address is always there (R6). -/
theorem leBytes_eq_cons (a : Nat) : leBytes a = byteAt a 0 :: (leBytes a).tail := by
  have hhead : (leBytes a)[0]? = some (byteAt a 0) := by
    rw [leBytes_getElem?]
    exact if_pos (nbytes_pos a)
  cases hbytes : leBytes a with
  | nil => simp [hbytes] at hhead
  | cons w ws => simpa [hbytes] using hhead

theorem noMark_leBytes_tail_iff {a : Nat} :
    NoMark (leBytes a).tail ↔ ∀ i, 1 ≤ i → i < nbytes a → byteAt a i ≠ endmark := by
  have htail : ∀ i, (leBytes a).tail[i]? = if i + 1 < nbytes a then some (byteAt a (i + 1)) else none := fun i => by
    rw [List.getElem?_tail, leBytes_getElem?]
  constructor
  · intro h i hi hlt
    obtain ⟨j, rfl⟩ : ∃ j, i = j + 1 := ⟨i - 1, by omega⟩
    exact h _ (List.mem_of_getElem? ((htail j).trans (if_pos hlt)))
  · intro h w hw
    obtain ⟨i, hi⟩ := List.mem_iff_getElem?.1 hw
    rw [htail] at hi
    split at hi <;> cases hi
    exact h (i + 1) (by omega) ‹_›

/-- The top byte of an address other than 0 is not zero, or one byte fewer would hold it (R6). -/
theorem byteAt_top_ne {a : Nat} (ha : a ≠ 0) : byteAt a (nbytes a - 1) ≠ endmark := by
  intro htop
  have hpos := nbytes_pos a
  refine leBytes_getLast_ne ha ?_
  rw [List.getLast?_eq_getElem?, leBytes_length, leBytes_getElem?, if_pos (by omega), htop]

/-- R92, and the other reading of D6. -/
theorem streamEncodable_iff {cfg : Config} {a : Nat} :
    streamEncodable cfg a = true ↔
      NoMark (leBytes a).tail ∧ (cfg.streamFirstByteTerminates = true → a = 0 ∨ byteAt a 0 ≠ endmark) := by
  simp only [streamEncodable, NoMark, Bool.and_eq_true, List.all_eq_true, bne_iff_ne, Bool.or_eq_true,
    Bool.not_eq_true', beq_iff_eq]
  cases cfg.streamFirstByteTerminates <;> simp

/-! ### The address field -/

/-- `StreamDecode` over a field whose first Word does not end it (R90). -/
theorem streamDecode_field {cfg : Config} {a : Word} {as : List Word} (rest : List Word) (has : NoMark as)
    (ha : cfg.streamFirstByteTerminates = true → a ≠ endmark) :
    streamDecode cfg (a :: as ++ endmark :: rest) = some (leValue (a :: as), as.length + 2) := by
  have hfirst : (cfg.streamFirstByteTerminates && a == endmark) = false := by
    cases hc : cfg.streamFirstByteTerminates
    · rfl
    · simpa using ha hc
  have hlen : 1 + as.length + 1 = as.length + 2 := by omega
  simp [streamDecode, hfirst, streamTail_field as rest has, leValue, hlen]

/-- Under `STREAM_FIRST_BYTE_TERMINATES` a first Word 0x00 is the whole field (R90, D6). -/
theorem streamDecode_terminator {cfg : Config} (hc : cfg.streamFirstByteTerminates = true) (rest : List Word) :
    streamDecode cfg (endmark :: rest) = some (0, 1) := by
  simp [streamDecode, hc]

/-- The Words that `StreamDecode` takes: the one Word 0x00 where it ends a field, or a first Word, Words that are not
ENDMARK, and ENDMARK. -/
theorem streamDecode_some {cfg : Config} {ws : List Word} {target len : Nat}
    (h : streamDecode cfg ws = some (target, len)) :
    (cfg.streamFirstByteTerminates = true ∧ ∃ rest, ws = endmark :: rest ∧ target = 0 ∧ len = 1) ∨
      ∃ a as rest, ws = a :: as ++ endmark :: rest ∧ NoMark as ∧
        (cfg.streamFirstByteTerminates = true → a ≠ endmark) ∧ target = leValue (a :: as) ∧ len = as.length + 2 := by
  cases ws with
  | nil => cases h
  | cons a ws =>
    by_cases hends : cfg.streamFirstByteTerminates = true ∧ a = endmark
    · obtain ⟨hc, rfl⟩ := hends
      rw [streamDecode_terminator hc] at h
      cases h
      exact .inl ⟨hc, ws, rfl, rfl, rfl⟩
    · have ha : cfg.streamFirstByteTerminates = true → a ≠ endmark := fun hc ha => hends ⟨hc, ha⟩
      rcases split_at_mark ws with hno | ⟨as, rest, rfl, has⟩
      · have hfirst : ¬ (cfg.streamFirstByteTerminates && a == endmark) = true := by simpa using ha
        rw [streamDecode, if_neg hfirst, streamTail_none ws hno] at h
        cases h
      · rw [← List.cons_append, streamDecode_field rest has ha] at h
        cases h
        exact .inr ⟨a, as, rest, rfl, has, ha, rfl, rfl⟩

/-- A field that is decoded lies within the Words there are. -/
theorem streamDecode_len_le {cfg : Config} {ws : List Word} {target len : Nat}
    (h : streamDecode cfg ws = some (target, len)) : len ≤ ws.length := by
  rcases streamDecode_some h with ⟨-, rest, rfl, -, rfl⟩ | ⟨a, as, rest, rfl, -, -, -, rfl⟩
  · simp
  · simp only [List.length_append, List.length_cons]
    omega

/-- What the encoder writes for an address the stream can carry, the decoder reads back, and no more (R90, R91). -/
theorem streamDecode_addressField {cfg : Config} {a : Nat} (h : streamEncodable cfg a = true) (rest : List Word) :
    streamDecode cfg (addressField cfg a ++ rest) = some (a, (addressField cfg a).length) := by
  obtain ⟨htail, hfirst⟩ := streamEncodable_iff.1 h
  by_cases hzero : cfg.streamFirstByteTerminates = true ∧ a = 0
  · obtain ⟨hc, rfl⟩ := hzero
    have hfield : addressField cfg 0 = [endmark] := by simp [addressField, hc]
    rw [hfield]
    exact streamDecode_terminator hc rest
  · have hfield : addressField cfg a = byteAt a 0 :: (leBytes a).tail ++ [endmark] := by
      rw [← leBytes_eq_cons]
      exact if_neg (by simpa using hzero)
    have hvalue : leValue (byteAt a 0 :: (leBytes a).tail) = a := by rw [← leBytes_eq_cons, leValue_leBytes]
    have ha : cfg.streamFirstByteTerminates = true → byteAt a 0 ≠ endmark := fun hc =>
      (hfirst hc).resolve_left fun h0 => hzero ⟨hc, h0⟩
    rw [hfield, List.append_assoc, List.singleton_append, streamDecode_field rest htail ha, hvalue]
    simp

/-- Words that are not ENDMARK have no ENDMARK on top. -/
theorem NoMark.getLast?_ne {ws : List Word} (h : NoMark ws) : ws.getLast? ≠ some endmark := fun hlast =>
  h endmark (List.mem_of_getLast? hlast) rfl

/-- What the decoder reads is an address the stream can carry, and the Words it took are what the encoder writes
for it. -/
theorem addressField_of_streamDecode {cfg : Config} {ws : List Word} {target len : Nat}
    (h : streamDecode cfg ws = some (target, len)) :
    streamEncodable cfg target = true ∧ ws.take len = addressField cfg target := by
  rcases streamDecode_some h with ⟨hc, rest, rfl, rfl, rfl⟩ | ⟨a, as, rest, rfl, has, ha, rfl, rfl⟩
  · exact ⟨streamEncodable_iff.2 ⟨by simp [leBytes_small, NoMark], fun _ => .inl rfl⟩, by simp [addressField, hc]⟩
  · have hbytes : leBytes (leValue (a :: as)) = a :: as := leBytes_leValue a as (.inr has.getLast?_ne)
    have hbyte : byteAt (leValue (a :: as)) 0 = a := by
      simpa [hbytes] using (leBytes_eq_cons (leValue (a :: as))).symm
    have hnonzero : cfg.streamFirstByteTerminates = true → leValue (a :: as) ≠ 0 := fun hc h0 => by
      rw [h0] at hbyte
      exact ha hc hbyte.symm
    refine ⟨streamEncodable_iff.2 ⟨by rwa [hbytes], fun hc => .inr (by rw [hbyte]; exact ha hc)⟩, ?_⟩
    have hfield : addressField cfg (leValue (a :: as)) = a :: as ++ [endmark] := by
      rw [← hbytes, leValue_leBytes]
      exact if_neg (by simpa using hnonzero)
    rw [hfield, List.take_append]
    simp

/-! ### The operands of a format, read back -/

variable {cfg : Config} {ops : List Word} {i : Instr} {len : Nat}

theorem decodeValue_instr {mk : Word → Instr} (h : decodeValue mk ops = .instr i len) :
    ∃ v rest, ops = v :: rest ∧ i = mk v ∧ len = 2 := by
  cases ops with
  | nil => cases h
  | cons v rest =>
    cases h
    exact ⟨v, rest, rfl, rfl, rfl⟩

theorem decodeTarget_instr {mk : Nat → Instr} (h : decodeTarget cfg mk ops = .instr i len) :
    ∃ target k, streamDecode cfg ops = some (target, k) ∧ i = mk target ∧ len = 1 + k := by
  unfold decodeTarget at h
  split at h <;> cases h
  exact ⟨_, _, ‹_›, rfl, rfl⟩

theorem decodeValueTarget_instr {mk : Word → Nat → Instr} (h : decodeValueTarget cfg mk ops = .instr i len) :
    ∃ v rest target k, ops = v :: rest ∧ streamDecode cfg rest = some (target, k) ∧ i = mk v target ∧
      len = 2 + k := by
  cases ops with
  | nil => cases h
  | cons v rest =>
    simp only [decodeValueTarget] at h
    split at h <;> cases h
    exact ⟨v, rest, _, _, rfl, ‹_›, rfl, rfl⟩

/-! ### One encoding for each format -/

theorem encoding_of_formatN {op : Word} {j : Instr} (hwf : j.wf cfg = true) (hencode : encode cfg j = [op])
    (h : Decoded.instr j 1 = .instr i len) : i.wf cfg = true ∧ (op :: ops).take len = encode cfg i := by
  cases h
  exact ⟨hwf, hencode.symm⟩

theorem encoding_of_pushval (h : decodeValue .pushval ops = .instr i len) :
    i.wf cfg = true ∧ (0x04#8 :: ops).take len = encode cfg i := by
  obtain ⟨v, rest, rfl, rfl, rfl⟩ := decodeValue_instr h
  exact ⟨rfl, rfl⟩

theorem encoding_of_formatT {op : Word} {mk : Nat → Instr}
    (hwf : ∀ target, (mk target).wf cfg = streamEncodable cfg target)
    (hencode : ∀ target, encode cfg (mk target) = op :: addressField cfg target)
    (h : decodeTarget cfg mk ops = .instr i len) : i.wf cfg = true ∧ (op :: ops).take len = encode cfg i := by
  obtain ⟨target, k, hfield, rfl, rfl⟩ := decodeTarget_instr h
  obtain ⟨hcarried, htake⟩ := addressField_of_streamDecode hfield
  refine ⟨(hwf target).trans hcarried, ?_⟩
  rw [hencode, ← htake, Nat.add_comm, List.take_succ_cons]

theorem encoding_of_jmpif (h : decodeValueTarget cfg .jmpif ops = .instr i len) :
    i.wf cfg = true ∧ (0x09#8 :: ops).take len = encode cfg i := by
  obtain ⟨v, rest, target, k, rfl, hfield, rfl, rfl⟩ := decodeValueTarget_instr h
  obtain ⟨hcarried, htake⟩ := addressField_of_streamDecode hfield
  refine ⟨hcarried, ?_⟩
  rw [encode, ← htake, Nat.add_comm, List.take_succ_cons, List.take_succ_cons]

/-! ### An operand part is never an unknown opcode -/

theorem decodeValue_ne_unknown (mk : Word → Instr) (ops : List Word) (op : Word) :
    decodeValue mk ops ≠ .unknown op := by
  cases ops <;> simp [decodeValue]

theorem decodeTarget_ne_unknown (cfg : Config) (mk : Nat → Instr) (ops : List Word) (op : Word) :
    decodeTarget cfg mk ops ≠ .unknown op := by
  unfold decodeTarget
  split <;> simp

theorem decodeValueTarget_ne_unknown (cfg : Config) (mk : Word → Nat → Instr) (ops : List Word) (op : Word) :
    decodeValueTarget cfg mk ops ≠ .unknown op := by
  cases ops with
  | nil => simp
  | cons v rest =>
    simp only [decodeValueTarget]
    split <;> simp

/-! ### The Word 0x00 in opcode position -/

theorem decode_zero_of_isNop (h : cfg.opc00IsNop = true) (ops : List Word) :
    decode cfg (0x00#8 :: ops) = .instr .nop 1 := by
  simp [decode, h]

theorem decode_zero_of_not_isNop (h : cfg.opc00IsNop = false) (ops : List Word) :
    decode cfg (0x00#8 :: ops) = .unknown 0x00#8 := by
  simp [decode, h]

end Sys2Proof.Machine

namespace Sys2Proof.Machine

/-! ### The statements -/

/-- Settles O4: the opcode Word of each instruction is decoded by the equation of the opcode map, and an address field
by `streamDecode_addressField`. -/
theorem decodeEncodeAgree : Obligations.DecodeEncodeAgree := by
  intro cfg i rest hwf
  cases i with
  | nop | drop | pop | push | pushval v | dup | swap | inc | dec | ret => rfl
  | jmpif v target =>
    rw [encode, List.cons_append, List.cons_append, decode_opcode_jmpif,
      decodeValueTarget_of_streamDecode _ v (streamDecode_addressField hwf rest), List.length_cons, List.length_cons,
      Nat.add_comm]
  | call target =>
    rw [encode, List.cons_append, decode_opcode_call,
      decodeTarget_of_streamDecode _ (streamDecode_addressField hwf rest), List.length_cons, Nat.add_comm]
  | goto target =>
    rw [encode, List.cons_append, decode_opcode_goto,
      decodeTarget_of_streamDecode _ (streamDecode_addressField hwf rest), List.length_cons, Nat.add_comm]

/-- Settles O5: by the case of the opcode Word, each by the lemma of its format. -/
theorem encodingIsUnique : Obligations.EncodingIsUnique := by
  intro cfg words i len hnop h
  cases words with
  | nil => cases h
  | cons op ops =>
    rcases decode_cases cfg op ops with ⟨rfl, hd⟩ | ⟨rfl, hd⟩ | ⟨rfl, hd⟩ | ⟨rfl, hd⟩ | ⟨rfl, hd⟩ | ⟨rfl, hd⟩ |
      ⟨rfl, hd⟩ | ⟨rfl, hd⟩ | ⟨rfl, hd⟩ | ⟨rfl, hd⟩ | ⟨rfl, hd⟩ | ⟨rfl, hd⟩ | ⟨rfl, hd⟩ | ⟨-, hisNop, -⟩ | ⟨-, hd⟩
    · exact encoding_of_formatN rfl rfl (hd.symm.trans h)
    · exact encoding_of_formatN rfl rfl (hd.symm.trans h)
    · exact encoding_of_formatN rfl rfl (hd.symm.trans h)
    · exact encoding_of_formatN rfl rfl (hd.symm.trans h)
    · exact encoding_of_pushval (hd.symm.trans h)
    · exact encoding_of_formatN rfl rfl (hd.symm.trans h)
    · exact encoding_of_formatN rfl rfl (hd.symm.trans h)
    · exact encoding_of_formatN rfl rfl (hd.symm.trans h)
    · exact encoding_of_formatN rfl rfl (hd.symm.trans h)
    · exact encoding_of_jmpif (hd.symm.trans h)
    · exact encoding_of_formatN rfl rfl (hd.symm.trans h)
    · exact encoding_of_formatT (fun _ => rfl) (fun _ => rfl) (hd.symm.trans h)
    · exact encoding_of_formatT (fun _ => rfl) (fun _ => rfl) (hd.symm.trans h)
    · simp [hnop] at hisNop
    · cases hd.symm.trans h

/-- Settles O6: the field by the loop of the decoder, and each instruction by the equation of its format. -/
theorem targetIsLittleEndian : Obligations.TargetIsLittleEndian := by
  intro cfg a0 as rest has hfirst
  have hfield := streamDecode_field rest has hfirst
  simp only [List.cons_append] at hfield ⊢
  refine ⟨hfield, ?goto, ?call, fun v => ?jmpif⟩
  case goto => rw [decode_opcode_goto, decodeTarget_of_streamDecode _ hfield, Nat.add_comm]
  case call => rw [decode_opcode_call, decodeTarget_of_streamDecode _ hfield, Nat.add_comm]
  case jmpif => rw [decode_opcode_jmpif, decodeValueTarget_of_streamDecode _ v hfield, Nat.add_comm]

/-- Settles O7: what is decoded is encodable, and what is encodable is decoded from its own field. An address below
65536 has at most one byte above byte 0, its top byte, which is not zero. -/
theorem streamCarriesEncodable : Obligations.StreamCarriesEncodable := by
  have hencodable : ∀ a, streamEncodable Config.standard a = true ↔
      ∀ i, 1 ≤ i → i < nbytes a → byteAt a i ≠ endmark := fun a => by
    rw [streamEncodable_iff, noMark_leBytes_tail_iff]
    simp [Config.standard]
  refine ⟨fun a => ⟨?decoded, ?carried⟩, fun a ha => (hencodable a).2 fun i hi hlt => ?twoBytes⟩
  case decoded =>
    rintro ⟨words, len, h⟩
    exact (hencodable a).1 (addressField_of_streamDecode h).1
  case carried => exact fun h => ⟨_, _, streamDecode_addressField ((hencodable a).2 h) []⟩
  case twoBytes =>
    have htwo : nbytes a ≤ 2 := nbytes_le a 2 (by omega) (by omega)
    obtain rfl : i = nbytes a - 1 := by omega
    refine byteAt_top_ne ?_
    rintro rfl
    rw [nbytes_small (by omega)] at hi
    omega

/-- Settles O2: the decoder run on the eight sequences. -/
theorem writtenWordsDecode : Obligations.WrittenWordsDecode :=
  ⟨rfl, rfl, rfl, by decide, by decide, by decide, by decide, rfl⟩

/-- Settles O3: by the case of the opcode Word; neither a format without operands nor an operand part answers `unknown`,
and each of the 13 Words, and 0x00 read as NOP, is excluded on the right. -/
theorem unknownOpcodesAreTheRest : Obligations.UnknownOpcodesAreTheRest := by
  intro cfg op ops
  rcases decode_cases cfg op ops with ⟨rfl, hd⟩ | ⟨rfl, hd⟩ | ⟨rfl, hd⟩ | ⟨rfl, hd⟩ | ⟨rfl, hd⟩ | ⟨rfl, hd⟩ |
    ⟨rfl, hd⟩ | ⟨rfl, hd⟩ | ⟨rfl, hd⟩ | ⟨rfl, hd⟩ | ⟨rfl, hd⟩ | ⟨rfl, hd⟩ | ⟨rfl, hd⟩ | ⟨rfl, hisNop, hd⟩ |
    ⟨hrest, hd⟩
  on_goal 15 => exact iff_of_true hd hrest
  all_goals
    rw [hd]
    simp [decodeValue_ne_unknown, decodeTarget_ne_unknown, decodeValueTarget_ne_unknown, *]

end Sys2Proof.Machine
end

section
/-! The call-stack side of the address codec (43_address_codec.md section 2): what `CallPop` makes of the Words that
`CallPush` wrote, by whether the address has a zero byte and where its lowest one is. -/

namespace Sys2Proof.Machine

/-! ### The Words of a return address -/

/-- ENDMARK goes below the bytes in the double-zero form too (R93). -/
theorem callPush_eq (a : Nat) (below : List Word) : callPush a below = below ++ endmark :: (leBytes a).reverse := by
  rw [callPush, callBytes_eq]

/-- The bytes of an address are split at its byte `j`. -/
theorem leBytes_split {a j : Nat} (hj : j < nbytes a) :
    leBytes a = (leBytes a).take j ++ byteAt a j :: (leBytes a).drop (j + 1) := by
  have hlen : j < (leBytes a).length := by rwa [leBytes_length]
  have hbyte : (leBytes a)[j] = byteAt a j := by simp [leBytes]
  rw [← hbyte, List.getElem_cons_drop, List.take_append_drop]

/-- The low `j` bytes of an address are its value modulo `2^(8j)`. -/
theorem leValue_take_leBytes {a j : Nat} (hj : j ≤ nbytes a) : leValue ((leBytes a).take j) = a % 2 ^ (8 * j) := by
  have hlen : ((leBytes a).take j).length = j := by simpa using hj
  have hsplit := leValue_append ((leBytes a).take j) ((leBytes a).drop j)
  have hlt := leValue_lt ((leBytes a).take j)
  rw [List.take_append_drop, leValue_leBytes, hlen] at hsplit
  rw [hlen] at hlt
  conv_rhs => rw [hsplit, Nat.add_mul_mod_self_left, Nat.mod_eq_of_lt hlt]

theorem noMark_take_leBytes {a j : Nat} (hbytes : ∀ i, i < j → byteAt a i ≠ endmark) : NoMark ((leBytes a).take j) := by
  intro w hw
  obtain ⟨i, hi⟩ := List.mem_iff_getElem?.1 hw
  rw [List.getElem?_take, leBytes_getElem?] at hi
  split at hi
  case isFalse => cases hi
  case isTrue hij =>
    split at hi <;> cases hi
    exact hbytes i hij

/-- An address has no zero byte, or a lowest one. -/
theorem zero_byte_cases (a : Nat) :
    NoMark (leBytes a) ∨ ∃ j, j < nbytes a ∧ byteAt a j = endmark ∧ ∀ i, i < j → byteAt a i ≠ endmark := by
  by_cases h : ∃ j, j < nbytes a ∧ byteAt a j = endmark
  · obtain ⟨hlt, hzero⟩ := Nat.find_spec h
    exact .inr ⟨Nat.find h, hlt, hzero, fun i hi hi0 => Nat.find_min h hi ⟨hi.trans hlt, hi0⟩⟩
  · exact .inl (noMark_leBytes_iff.2 fun i hlt hzero => h ⟨i, hlt, hzero⟩)

/-! ### `CallPop` after `CallPush` -/

/-- Inside the round-trip domain: no byte is zero (R95). -/
theorem callPop_callPush_of_noMark {a : Nat} (h : NoMark (leBytes a)) (below : List Word) :
    callPop (callPush a below) = some (a, below) := by
  have hne : leBytes a ≠ [] := by
    rw [leBytes_eq_cons]
    simp
  rw [callPush_eq, callPop_address below _ hne h, leValue_leBytes]

/-- Inside the round-trip domain: the double-zero form of address 0 (R95). -/
theorem callPop_callPush_zero (below : List Word) : callPop (callPush 0 below) = some (0, below) :=
  callPop_double_zero below endmark

/-- Byte 0, on top, is zero: it is taken for the double-zero form, so one more Word goes unseen (R96). -/
theorem callPop_callPush_of_byte_zero {a : Nat} (h : byteAt a 0 = endmark) (below : List Word) :
    ∃ left, callPop (callPush a below) = some (0, below ++ left) ∧ left.length = nbytes a - 1 := by
  have hbytes : leBytes a = endmark :: (leBytes a).tail := by rw [← h, ← leBytes_eq_cons]
  have hpushed : callPush a below = below ++ endmark :: (leBytes a).tail.reverse ++ [endmark] := by
    rw [callPush_eq, hbytes]
    simp
  obtain ⟨left, w, hleft⟩ : ∃ left w, endmark :: (leBytes a).tail.reverse = left ++ [w] :=
    ⟨_, _, (List.dropLast_append_getLast (List.cons_ne_nil _ _)).symm⟩
  refine ⟨left, ?_, ?_⟩
  · rw [hpushed, hleft]
    simpa using callPop_double_zero (below ++ left) w
  · have hlen := congrArg List.length hleft
    simp only [List.length_cons, List.length_reverse, List.length_tail, leBytes_length, List.length_append,
      List.length_nil] at hlen
    omega

/-- The lowest zero byte, above byte 0, is taken for the ENDMARK: the bytes below it are the address, and the
ENDMARK that was pushed stays behind with the bytes above it (R96). -/
theorem callPop_callPush_of_lowest_zero {a j : Nat} (hj : 1 ≤ j) (hlt : j < nbytes a) (hzero : byteAt a j = endmark)
    (hlowest : ∀ i, i < j → byteAt a i ≠ endmark) (below : List Word) :
    ∃ left, callPop (callPush a below) = some (a % 2 ^ (8 * j), below ++ left) ∧ left.length = nbytes a - j := by
  have hlen : ((leBytes a).take j).length = j := by simpa using hlt.le
  have hne : (leBytes a).take j ≠ [] := List.ne_nil_of_length_pos (by omega)
  refine ⟨endmark :: ((leBytes a).drop (j + 1)).reverse, ?_, by simp; omega⟩
  have hpushed : callPush a below =
      (below ++ endmark :: ((leBytes a).drop (j + 1)).reverse) ++ endmark :: ((leBytes a).take j).reverse := by
    rw [callPush_eq]
    conv_lhs => rw [leBytes_split hlt, hzero]
    simp
  rw [hpushed, callPop_address _ _ hne (noMark_take_leBytes hlowest), leValue_take_leBytes hlt.le]

/-- R95's domain is exact: with byte 0 zero only address 0 comes back, and with a higher lowest zero byte a Word is left
behind. -/
theorem callPop_callPush_iff {a : Nat} {below : List Word} :
    callPop (callPush a below) = some (a, below) ↔ a = 0 ∨ NoMark (leBytes a) := by
  constructor
  · intro h
    rcases zero_byte_cases a with hno | ⟨j, hlt, hzero, hlowest⟩
    · exact .inr hno
    · left
      cases j with
      | zero =>
        obtain ⟨left, hpop, -⟩ := callPop_callPush_of_byte_zero hzero below
        have hpair := Option.some.inj (hpop.symm.trans h)
        exact (congrArg Prod.fst hpair).symm
      | succ j =>
        obtain ⟨left, hpop, hlen⟩ := callPop_callPush_of_lowest_zero (by omega) hlt hzero hlowest below
        have hpair := Option.some.inj (hpop.symm.trans h)
        have hnil : left = [] := by simpa using congrArg Prod.snd hpair
        rw [hnil, List.length_nil] at hlen
        omega
  · rintro (rfl | hno)
    · exact callPop_callPush_zero below
    · exact callPop_callPush_of_noMark hno below

theorem roundTrips_iff {a : Nat} : roundTrips a = true ↔ a = 0 ∨ NoMark (leBytes a) := by
  simp [roundTrips, NoMark]

/-- R94: the stacks on which `CallPop` fails (D13). -/
theorem callPop_eq_none_iff {cs : List Word} : callPop cs = none ↔ NoMark cs ∨ cs = [endmark] := by
  constructor
  · intro h
    rcases callPop_cases cs with ⟨-, hbad⟩ | ⟨below, w, -, hpop⟩ | ⟨below, bytes, -, -, -, hpop⟩
    · exact hbad
    · cases hpop.symm.trans h
    · cases hpop.symm.trans h
  · rintro (hno | rfl)
    · exact callPop_no_mark cs hno
    · exact callPop_lone_zero

end Sys2Proof.Machine

namespace Sys2Proof.Machine

/-! ### The statements -/

/-- Settles O34: the round-trip domain of `callPop_callPush_iff`, its bytes read one by one. -/
theorem roundTripExactly : Obligations.RoundTripExactly := by
  intro a cs
  rw [callPop_callPush_iff, noMark_leBytes_iff]

/-- Settles O32: the Words pushed are the bytes of the address reversed, so the deepest is its top byte. -/
theorem callPushLayout : Obligations.CallPushLayout := by
  refine ⟨fun cs => rfl, fun a cs ha => ⟨⟨(leBytes a).reverse, callPush_eq a cs, ?length, fun i hi => ?place, ?deepest⟩,
    lt_pow_nbytes a, nbytes_le a⟩⟩
  case length => rw [List.length_reverse, leBytes_length]
  case place =>
    rw [List.getElem?_reverse (by rw [leBytes_length]; omega), leBytes_length, leBytes_getElem?, if_pos (by omega)]
    congr 2
    omega
  case deepest =>
    rw [List.head?_reverse]
    exact leBytes_getLast_ne ha

/-- Settles O33: one lemma about `CallPop` for each form of the call stack. -/
theorem callPopDecodes : Obligations.CallPopDecodes :=
  ⟨callPop_address, callPop_double_zero, fun _ => callPop_eq_none_iff⟩

/-- Settles O35: by the place of the lowest zero byte; in every case what lay beneath stays beneath. -/
theorem outsideRoundTrip : Obligations.OutsideRoundTrip := by
  refine ⟨fun a below _ hzero => callPop_callPush_of_byte_zero hzero below,
    fun a j below hj hlt hzero hlowest => callPop_callPush_of_lowest_zero hj hlt hzero hlowest below,
    fun a below => ?never⟩
  case never =>
    rcases zero_byte_cases a with hno | ⟨j, hlt, hzero, hlowest⟩
    · exact ⟨a, [], by rw [callPop_callPush_of_noMark hno, List.append_nil]⟩
    · cases j with
      | zero =>
        obtain ⟨left, hpop, -⟩ := callPop_callPush_of_byte_zero hzero below
        exact ⟨_, left, hpop⟩
      | succ j =>
        obtain ⟨left, hpop, -⟩ := callPop_callPush_of_lowest_zero (by omega) hlt hzero hlowest below
        exact ⟨_, left, hpop⟩

end Sys2Proof.Machine
end

section
/-! What each instruction does to the whole state (R65 to R84): every effect an execute can have, with its cause. From
it, which failures there are and when (60_exceptions.md), how frames are kept and left (42_control.md), and that every
step keeps the invariant. -/

namespace Sys2Proof.Machine

variable {i : Instr} {s t : State}

/-! ### The failures of frames and RET -/

/-- Where the frame does not allow PUSH or RET (R117): PUSH with nothing above the active boundary, RET with a boundary
that is not the length of the call stack; an empty `cl` in both (D11). -/
def FrameForbids (i : Instr) (s : State) : Prop :=
  (i = .push ∧ ∀ b, s.cl.getLast? = some b → s.cs.length ≤ b) ∨ (i = .ret ∧ s.cl.getLast? ≠ some s.cs.length)

/-- Where RET finds its boundary but no return address (R119, D13). -/
def NoReturnAddress (i : Instr) (s : State) : Prop :=
  i = .ret ∧ s.cl.getLast? = some s.cs.length ∧ s.cs ≠ [] ∧ callPop s.cs = none

theorem execPush_of_frameForbids (h : ∀ b, s.cl.getLast? = some b → s.cs.length ≤ b) :
    execPush s = .next (s.fail .frameViolation) := by
  rcases execPush_cases s with ⟨-, hfail⟩ | ⟨ls, b, ys, v, hcl, -, hb, -⟩
  · exact hfail
  · exact absurd hb (Nat.not_lt.mpr (h b (by simp [hcl])))

theorem execRet_of_mismatch (h : s.cl.getLast? ≠ some s.cs.length) : execRet s = .next (s.fail .frameViolation) := by
  rcases execRet_cases s with ⟨-, hfail⟩ | ⟨ls, hcl, -⟩
  · exact hfail
  · exact absurd (by rw [hcl, List.getLast?_concat]) h

/-- F2 leaves everything but `status` (R117). -/
theorem exec_of_frameForbids (h : FrameForbids i s) : exec i s = .next (s.fail .frameViolation) := by
  rcases h with ⟨rfl, hframe⟩ | ⟨rfl, hmismatch⟩
  · exact execPush_of_frameForbids hframe
  · exact execRet_of_mismatch hmismatch

/-- With an empty `cl` neither PUSH nor RET has a boundary (D11). -/
theorem frameForbids_of_cl_nil (hcl : s.cl = []) (hi : i = .push ∨ i = .ret) : FrameForbids i s :=
  hi.imp (fun hpush => ⟨hpush, by simp [hcl]⟩) (fun hret => ⟨hret, by simp [hcl]⟩)

/-! ### RET at its boundary -/

/-- RET that finds a return address (R84). -/
theorem execRet_of_callPop {ls : List Nat} {left : List Word} {a : Nat} (hcl : s.cl = ls ++ [s.cs.length])
    (hpop : callPop s.cs = some (a, left)) :
    execRet s = .next { s with cl := ls, cs := left, ip := a, result := some .continued } := by
  have hne : s.cs.length ≠ 0 := fun h0 => by
    rw [List.length_eq_zero_iff.mp h0] at hpop
    cases hpop
  simp only [execRet, hcl, Stack.pop?_push]
  simp [hne, hpop, State.complete]

/-- RET that finds none: the pops are not rolled back (D12). -/
theorem execRet_of_callPop_none {ls : List Nat} (hcl : s.cl = ls ++ [s.cs.length]) (hne : s.cs ≠ [])
    (hpop : callPop s.cs = none) :
    execRet s = .next ({ s with cl := ls, cs := [] }.fail .malformedAddress) := by
  simp only [execRet, hcl, Stack.pop?_push]
  simp [hne, hpop]

/-! ### Every effect of an execute -/

/-- Every effect that the execute of `i` can have on `s`: the state it leaves, and what brings it about. -/
inductive ExecEffect (i : Instr) (s t : State) : Prop
  /-- NOP (R66). -/
  | nothing (hi : i = .nop) (ht : t = s.complete)
  /-- F1 (R116). -/
  | underflowed (hshort : s.ds.length < dataOperands i) (ht : t = s.fail .stackUnderflow)
  /-- The data stack is written, and nothing but it (R67, R70, R71, R72, R75, R76). -/
  | computed (ds : List Word)
      (hi : i = .drop ∨ (∃ v, i = .pushval v) ∨ i = .dup ∨ i = .swap ∨ i = .inc ∨ i = .dec)
      (hroom : withinCap s.cfg.dsCap ds.length = true ∨ ds.length ≤ s.ds.length)
      (ht : t = { s with ds := ds, result := some .continued })
  /-- POP (R68). -/
  | popped (xs : List Word) (v : Word) (hi : i = .pop) (hds : s.ds = xs ++ [v])
      (hroom : withinCap s.cfg.csCap (s.cs.length + 1) = true)
      (ht : t = { s with ds := xs, cs := s.cs ++ [v], result := some .continued })
  /-- PUSH within the frame (R69). -/
  | pushed (ls : List Nat) (b : Nat) (ys : List Word) (v : Word) (hi : i = .push) (hcl : s.cl = ls ++ [b])
      (hcs : s.cs = ys ++ [v]) (hb : b ≤ ys.length) (hroom : withinCap s.cfg.dsCap (s.ds.length + 1) = true)
      (ht : t = { s with cs := ys, ds := s.ds ++ [v], result := some .continued })
  /-- JMPIF, taken or not (R81). -/
  | branched (xs : List Word) (x : Word) (ip : Nat) (hi : ∃ v target, i = .jmpif v target) (hds : s.ds = xs ++ [x])
      (ht : t = { s with ds := xs, ip := ip, result := some .continued })
  /-- GOTO (R83). -/
  | jumped (target : Nat) (hi : i = .goto target) (ht : t = { s with ip := target, result := some .continued })
  /-- CALL (R82). -/
  | called (target : Nat) (hi : i = .call target)
      (hcsRoom : withinCap s.cfg.csCap (callPush s.ip s.cs).length = true)
      (hclRoom : withinCap s.cfg.clCap (s.cl.length + 1) = true)
      (hwidth : addressFits s.cfg (callPush s.ip s.cs).length = true)
      (ht : t = { s with
        cs := callPush s.ip s.cs, cl := s.cl ++ [(callPush s.ip s.cs).length], ip := target
        result := some .continued })
  /-- F2 (R117). -/
  | violated (hforbids : FrameForbids i s) (ht : t = s.fail .frameViolation)
  /-- RET in the outermost frame (R84, D10). -/
  | terminated (ls : List Nat) (hi : i = .ret) (hcl : s.cl = ls ++ [s.cs.length]) (hcs : s.cs = [])
      (ht : t = { s with cl := ls, result := some .terminated })
  /-- F4 (R119, D12). -/
  | malformed (ls : List Nat) (hnone : NoReturnAddress i s) (hcl : s.cl = ls ++ [s.cs.length])
      (ht : t = { s with cl := ls, cs := [] }.fail .malformedAddress)
  /-- RET to a return address (R84). -/
  | returned (ls : List Nat) (a : Nat) (left : List Word) (hi : i = .ret) (hcl : s.cl = ls ++ [s.cs.length])
      (hpop : callPop s.cs = some (a, left))
      (ht : t = { s with cl := ls, cs := left, ip := a, result := some .continued })

/-- An instruction with one operand on the data stack underflows or has the effect of its continuation. -/
theorem withTop_execEffect {k : Word → State → Result} (hi : dataOperands i = 1) (h : withTop s k = .next t)
    (hk : ∀ v xs, s.ds = xs ++ [v] → k v { s with ds := xs } = .next t → ExecEffect i s t) : ExecEffect i s t := by
  rcases withTop_cases s k with ⟨hnil, hfail⟩ | ⟨xs, v, hds, hpop⟩
  · cases hfail.symm.trans h
    exact .underflowed (by simp [hnil, hi]) rfl
  · exact hk v xs hds (hpop.symm.trans h)

/-- A push on the data stack, where it is not refused, had room. -/
theorem pushData_execEffect {v : Word} (hi : (∃ v, i = .pushval v) ∨ i = .dup) (h : pushData v s = .next t) :
    ExecEffect i s t := by
  rcases pushData_cases v s with ⟨hroom, hnext⟩ | ⟨-, href⟩
  · cases hnext.symm.trans h
    exact .computed (s.ds ++ [v]) (by tauto) (.inl (by simpa using hroom)) rfl
  · cases href.symm.trans h

theorem execPop_execEffect (h : execPop s = .next t) : ExecEffect .pop s t :=
  withTop_execEffect rfl h fun v xs hds hk => by
    split at hk <;> cases hk
    exact .popped xs v rfl hds ‹_› rfl

theorem execPush_execEffect (h : execPush s = .next t) : ExecEffect .push s t := by
  rcases execPush_cases s with ⟨hcause, hfail⟩ | ⟨ls, b, ys, v, hcl, hcs, hb, ⟨hroom, hnext⟩ | ⟨-, href⟩⟩
  · cases hfail.symm.trans h
    refine .violated (.inl ⟨rfl, ?_⟩) rfl
    rcases hcause with hnil | ⟨ls, b, hcl, hb⟩
    · simp [hnil]
    · simpa [hcl] using hb
  · cases hnext.symm.trans h
    exact .pushed ls b ys v rfl hcl hcs (by simpa [hcs, Nat.lt_succ_iff] using hb) hroom rfl
  · cases href.symm.trans h

theorem execDup_execEffect (h : execDup s = .next t) : ExecEffect .dup s t := by
  rcases List.eq_nil_or_concat s.ds with hnil | ⟨xs, v, hds⟩
  · cases (execDup_of_ds_nil hnil).symm.trans h
    exact .underflowed (by simp [hnil, dataOperands]) rfl
  · rw [List.concat_eq_append] at hds
    exact pushData_execEffect (.inr rfl) ((execDup_of_ds_concat hds).symm.trans h)

theorem execSwap_execEffect (h : execSwap s = .next t) : ExecEffect .swap s t := by
  rcases withTopTwo_cases s _ with ⟨hshort, hfail⟩ | ⟨xs, a, b, hds, hnext⟩
  · cases hfail.symm.trans h
    exact .underflowed hshort rfl
  · cases hnext.symm.trans h
    exact .computed (Stack.push (Stack.push xs b) a) (by simp) (.inr (by simp [hds])) rfl

theorem execCall_execEffect {target : Nat} (h : execCall target s = .next t) : ExecEffect (.call target) s t := by
  rcases execCall_cases target s with ⟨hcs, hcl, hwidth, hnext⟩ | ⟨-, href⟩ | ⟨-, -, href⟩ | ⟨-, -, -, href⟩
  · cases hnext.symm.trans h
    exact .called target rfl hcs hcl hwidth rfl
  all_goals cases href.symm.trans h

theorem execRet_execEffect (h : execRet s = .next t) : ExecEffect .ret s t := by
  rcases execRet_cases s with
    ⟨hcause, hfail⟩ | ⟨ls, hcl, ⟨hcs, hterm⟩ | ⟨hne, hpop, hbad⟩ | ⟨a, left, -, hpop, hret⟩⟩
  · cases hfail.symm.trans h
    refine .violated (.inr ⟨rfl, ?_⟩) rfl
    rcases hcause with hnil | ⟨ls, b, hcl, hb⟩
    · simp [hnil]
    · simpa [hcl] using hb.symm
  · cases hterm.symm.trans h
    exact .terminated ls rfl hcl hcs rfl
  · cases hbad.symm.trans h
    exact .malformed ls ⟨rfl, by rw [hcl, List.getLast?_concat], hne, hpop⟩ hcl rfl
  · cases hret.symm.trans h
    exact .returned ls a left rfl hcl hpop rfl

/-- Every instruction that is not refused has one of the effects (R65). -/
theorem exec_execEffect (h : exec i s = .next t) : ExecEffect i s t := by
  cases i with
  | nop =>
    cases h
    exact .nothing rfl rfl
  | drop | inc | dec =>
    simp only [exec, execDrop, execInc, execDec] at h
    exact withTop_execEffect rfl h fun v xs hds hk => by
      cases hk
      exact .computed _ (by simp) (.inr (by simp [hds])) rfl
  | pop => exact execPop_execEffect h
  | push => exact execPush_execEffect h
  | pushval v => exact pushData_execEffect (.inl ⟨v, rfl⟩) h
  | dup => exact execDup_execEffect h
  | swap => exact execSwap_execEffect h
  | jmpif v target =>
    rw [exec_jmpif, execJmpif] at h
    exact withTop_execEffect rfl h fun x xs hds hk => by
      cases hk
      exact .branched xs x _ ⟨v, target, rfl⟩ hds rfl
  | ret => exact execRet_execEffect h
  | call target => exact execCall_execEffect h
  | goto target =>
    cases h
    exact .jumped target rfl rfl

/-! ### What an instruction leaves as its result -/

/-- The result of an instruction and its cause, in the order of R115. -/
theorem ExecEffect.result_cases (e : ExecEffect i s t) :
    t.result = some .continued ∨ t.result = some .terminated ∨
      t.result = some (.failed .stackUnderflow) ∨
      (FrameForbids i s ∧ t.result = some (.failed .frameViolation)) ∨
      (NoReturnAddress i s ∧ t.result = some (.failed .malformedAddress)) := by
  cases e with
  | nothing _ ht | computed _ _ _ ht | popped _ _ _ _ _ ht | pushed _ _ _ _ _ _ _ _ _ ht | branched _ _ _ _ _ ht
  | jumped _ _ ht | called _ _ _ _ _ ht | returned _ _ _ _ _ _ ht => exact .inl (by simp [ht])
  | terminated _ _ _ _ ht => exact .inr (.inl (by rw [ht]))
  | underflowed _ ht => exact .inr (.inr (.inl (by rw [ht]; rfl)))
  | violated hforbids ht => exact .inr (.inr (.inr (.inl ⟨hforbids, by rw [ht]; rfl⟩)))
  | malformed _ hnone _ ht => exact .inr (.inr (.inr (.inr ⟨hnone, by rw [ht]; rfl⟩)))

theorem exec_frameViolation_iff (h : exec i s = .next t) :
    t.result = some (.failed .frameViolation) ↔ FrameForbids i s := by
  constructor
  · intro hresult
    rcases (exec_execEffect h).result_cases with hr | hr | hr | ⟨hforbids, -⟩ | ⟨-, hr⟩
    on_goal 4 => exact hforbids
    all_goals simp [hr] at hresult
  · intro hforbids
    cases (exec_of_frameForbids hforbids).symm.trans h
    rfl

theorem exec_malformedAddress_iff (h : exec i s = .next t) :
    t.result = some (.failed .malformedAddress) ↔ NoReturnAddress i s := by
  constructor
  · intro hresult
    rcases (exec_execEffect h).result_cases with hr | hr | hr | ⟨-, hr⟩ | ⟨hnone, -⟩
    on_goal 5 => exact hnone
    all_goals simp [hr] at hresult
  · rintro ⟨rfl, hlast, hne, hpop⟩
    obtain ⟨ls, hcl⟩ := List.getLast?_eq_some_iff.1 hlast
    cases (execRet_of_callPop_none hcl hne hpop).symm.trans h
    rfl

/-- The policy of R120 for an instruction: `status` and the result it leaves. -/
theorem exec_strictPolicy (h : exec i s = .next t) :
    ((∃ k, t.result = some (.failed k)) ∧ t.status = if s.strict then .error else s.status) ∨
      ((t.result = some .continued ∨ t.result = some .terminated) ∧ t.status = s.status) := by
  cases exec_execEnd h with
  | completed hresult hstatus => exact .inr ⟨.inl hresult, hstatus⟩
  | terminated ls _ _ _ hnext => exact .inr ⟨.inr (by rw [hnext]), by rw [hnext]⟩
  | underflowed _ hnext => exact .inl ⟨⟨_, by rw [hnext]; rfl⟩, by rw [hnext]; rfl⟩
  | failed kind _ hresult hstatus => exact .inl ⟨⟨kind, hresult⟩, hstatus⟩

/-- The policy for a cycle, which adds the fetch fault: `error` whatever STRICT is (R121). -/
theorem cycle_strictPolicy (h : cycle s = .next t) :
    (t.result = some .faulted ∧ t.status = .error) ∨
      ((∃ k, t.result = some (.failed k)) ∧ t.status = if s.strict then .error else s.status) ∨
      ((t.result = some .continued ∨ t.result = some .terminated) ∧ t.status = s.status) := by
  rcases cycle_cases s with ⟨k, -, -, hfault⟩ | ⟨op, -, -, hfail⟩ | ⟨i, k, -, -, hexec⟩ | ⟨-, href⟩
  · cases hfault.symm.trans h
    exact .inl ⟨rfl, rfl⟩
  · cases hfail.symm.trans h
    exact .inr (.inl ⟨⟨_, rfl⟩, rfl⟩)
  · exact .inr (exec_strictPolicy (s := { s with ip := s.ip + k }) (hexec.symm.trans h))
  · cases href.symm.trans h

/-! ### No malformed address in a run -/

/-- A cycle over a framed call stack finds every return address it looks for (R84, R99). -/
theorem cycle_not_malformed (hframed : Framed s.cs s.cl) (h : cycle s = .next t) :
    t.result ≠ some (.failed .malformedAddress) := by
  intro hresult
  rcases cycle_cases s with ⟨k, -, -, hfault⟩ | ⟨op, -, -, hfail⟩ | ⟨i, k, -, -, hexec⟩ | ⟨-, href⟩
  · cases hfault.symm.trans h
    cases hresult
  · cases hfail.symm.trans h
    cases hresult
  · obtain ⟨-, hlast, hne, hpop⟩ := (exec_malformedAddress_iff (hexec.symm.trans h)).1 hresult
    obtain ⟨ls, hcl⟩ := List.getLast?_eq_some_iff.1 hlast
    obtain ⟨a, left, hpop', -⟩ := Framed.after_ret (hcl ▸ hframed) hne
    cases hpop.symm.trans hpop'
  · cases href.symm.trans h

/-! ### The sizes are kept -/

/-- Popping boundaries keeps the call-level stack within its sizes. -/
theorem callLevels_of_concat {ls : List Nat} {b : Nat} (hcl : s.cl = ls ++ [b])
    (hlen : withinCap s.cfg.clCap s.cl.length = true) (hfits : ∀ b ∈ s.cl, addressFits s.cfg b = true) :
    withinCap s.cfg.clCap ls.length = true ∧ ∀ b ∈ ls, addressFits s.cfg b = true :=
  ⟨withinCap_mono hlen (by simp [hcl]), fun b hb => hfits b (by simp [hcl, hb])⟩

/-- Every effect keeps the sizes: what an instruction pushes it has room for, or it is refused (U7). -/
theorem ExecEffect.withinCapacity (e : ExecEffect i s t) (h : WithinCapacity s) : WithinCapacity t := by
  obtain ⟨hmem, hds, hcs, hcl, hfits⟩ := h
  cases e with
  | nothing _ ht | underflowed _ ht | jumped _ _ ht | violated _ ht =>
    subst ht
    exact ⟨hmem, hds, hcs, hcl, hfits⟩
  | computed ds _ hroom ht =>
    subst ht
    exact ⟨hmem, hroom.elim id (withinCap_mono hds), hcs, hcl, hfits⟩
  | popped xs v _ hpop hroom ht =>
    subst ht
    exact ⟨hmem, withinCap_mono hds (by simp [hpop]), by simpa using hroom, hcl, hfits⟩
  | pushed ls b ys v _ _ hpop _ hroom ht =>
    subst ht
    exact ⟨hmem, by simpa using hroom, withinCap_mono hcs (by simp [hpop]), hcl, hfits⟩
  | branched xs x ip _ hpop ht =>
    subst ht
    exact ⟨hmem, withinCap_mono hds (by simp [hpop]), hcs, hcl, hfits⟩
  | called target _ hcsRoom hclRoom hwidth ht =>
    subst ht
    refine ⟨hmem, hds, hcsRoom, by simpa using hclRoom, fun b hb => ?_⟩
    rcases List.mem_append.1 hb with hold | hnew
    · exact hfits b hold
    · rwa [List.mem_singleton.1 hnew]
  | terminated ls _ hpop _ ht =>
    have hlevels := callLevels_of_concat hpop hcl hfits
    subst ht
    exact ⟨hmem, hds, hcs, hlevels⟩
  | malformed ls _ hpop ht =>
    have hlevels := callLevels_of_concat hpop hcl hfits
    subst ht
    exact ⟨hmem, hds, withinCap_mono hcs (Nat.zero_le _), hlevels⟩
  | returned ls a left _ hpop hleft ht =>
    have hlevels := callLevels_of_concat hpop hcl hfits
    subst ht
    obtain ⟨popped, hsplit, -⟩ := callPop_left hleft
    exact ⟨hmem, hds, withinCap_mono hcs (by simp [hsplit]), hlevels⟩

theorem cycle_keeps_withinCapacity (hs : WithinCapacity s) (h : cycle s = .next t) : WithinCapacity t := by
  rcases cycle_cases s with ⟨k, -, -, hfault⟩ | ⟨op, -, -, hfail⟩ | ⟨i, k, -, -, hexec⟩ | ⟨-, href⟩
  · cases hfault.symm.trans h
    exact hs
  · cases hfail.symm.trans h
    exact hs
  · exact (exec_execEffect (hexec.symm.trans h)).withinCapacity hs
  · cases href.symm.trans h

/-- Every host operation keeps the sizes: `loadprogram`, `setdata` and `run` test their own (U7). -/
theorem issue_keeps_withinCapacity {c : Command} (hs : WithinCapacity s) (h : issue c s = .next t) :
    WithinCapacity t := by
  have ⟨hmem, hds, hcs, hcl, hfits⟩ := hs
  cases c with
  | loadprogram bytes =>
    simp only [issue, loadprogram] at h
    split at h <;> cases h
    exact ⟨by simpa, hds, hcs, hcl, hfits⟩
  | setdata words =>
    simp only [issue, setdata] at h
    split at h <;> cases h
    exact ⟨hmem, ‹_›, hcs, hcl, hfits⟩
  | reset =>
    cases h
    exact ⟨hmem, withinCap_mono hds (Nat.zero_le _), withinCap_mono hcs (Nat.zero_le _),
      withinCap_mono hcl (Nat.zero_le _), by simp⟩
  | run strict maxsteps =>
    simp only [issue, runEntry] at h
    split at h <;> cases h
    refine ⟨hmem, hds, hcs, by simpa [Stack.push], fun b hb => ?_⟩
    rcases List.mem_append.1 hb with hold | hnew
    · exact hfits b hold
    · rw [List.mem_singleton.1 hnew]
      exact addressFits_zero _
  | step strict => exact cycle_keeps_withinCapacity (s := { s with strict := strict }) hs h
  | halt =>
    cases h
    exact hs

theorem takeHalt_keeps_withinCapacity (hs : WithinCapacity s) : WithinCapacity (takeHalt s) := by
  rw [takeHalt_eq]
  exact hs

theorem step_keeps_withinCapacity (hs : WithinCapacity s) (h : step s = .next t) : WithinCapacity t := by
  have htake := takeHalt_keeps_withinCapacity hs
  cases hrun : s.run with
  | some r =>
    rcases step_run_cases hrun with ⟨-, hend⟩ | ⟨-, -, hspent⟩ | ⟨-, -, hcycle⟩
    · cases hend.symm.trans h
      exact htake
    · cases hspent.symm.trans h
      exact htake
    · obtain ⟨u, hu, rfl⟩ := runCycle_next (hcycle.symm.trans h)
      have hcycled : WithinCapacity u := cycle_keeps_withinCapacity htake hu
      exact hcycled
  | none =>
    rcases step_idle hrun with ⟨-, hstay⟩ | ⟨c, rest, -, hissue⟩
    · cases hstay.symm.trans h
      exact hs
    · exact issue_keeps_withinCapacity (s := { s with commands := rest }) hs (hissue.symm.trans h)

/-- Every step keeps the memory canonical (R38). -/
theorem step_keeps_memory_wf (hs : Memory.wf s.mem = true) (h : step s = .next t) : Memory.wf t.mem = true := by
  rcases step_mem_cases h with hkept | ⟨bytes, -, -, hloaded⟩
  · rwa [hkept]
  · rw [hloaded, Memory.ofWords_wf]

end Sys2Proof.Machine

namespace Sys2Proof.Machine

/-! ### The statements -/

/-- Settles O55: the three parts of the invariant, each kept by every step. -/
theorem stepKeepsInvariant : Obligations.StepKeepsInvariant := by
  rintro s t ⟨hmem, hsizes, hframes⟩ h
  exact ⟨step_keeps_memory_wf hmem h, step_keeps_withinCapacity hsizes h, step_keeps_frameInv s t hframes h⟩

/-- Settles O57: a step after which the run is in progress has performed a cycle over a framed call stack. -/
theorem noMalformedAddressInRun : Obligations.NoMalformedAddressInRun := by
  intro s t r hs hrun h ht
  have hframed : Framed s.cs s.cl := frameInv_iff.1 hs (by simp [hrun])
  rcases step_run_cases hrun with ⟨-, hend⟩ | ⟨-, -, hspent⟩ | ⟨-, -, hcycle⟩
  · cases hend.symm.trans h
    cases ht
  · cases hspent.symm.trans h
    cases ht
  · obtain ⟨u, hu, rfl⟩ := runCycle_next (hcycle.symm.trans h)
    rw [afterCycle_result]
    exact cycle_not_malformed (by simpa using hframed) hu

/-- Settles O54: the memory of reset is empty, each stack within any capacity, and no run is in progress. -/
theorem invariantAtReset : Obligations.InvariantAtReset :=
  ⟨rfl, fun _ _ => ⟨Memory.reset_wf, ⟨rfl, rfl, rfl, rfl, by simp [State.reset]⟩, frameInv_of_idle rfl⟩⟩

/-- Settles O21: the first two clauses by what `CallPop` makes of their call stacks. -/
theorem retReturns : Obligations.RetReturns := by
  refine ⟨fun s ls below bytes hcl hcs hne hno => ?address, fun s ls below w hcl hcs => ?doubleZero,
    fun s ls b hcl hb => ?mismatch⟩
  case address => exact execRet_of_callPop hcl (by rw [hcs, callPop_address below bytes hne hno])
  case doubleZero => exact execRet_of_callPop hcl (by rw [hcs, callPop_double_zero])
  case mismatch => exact execRet_of_mismatch (by simpa [hcl] using hb.symm)

/-- Settles O22: the case of RET in the outermost frame. -/
theorem retTerminates : Obligations.RetTerminates :=
  fun _ _ hcl hcs => execRet_of_outermost hcl hcs

/-- Settles O23: without a boundary the frame forbids both. -/
theorem emptyLevelsFail : Obligations.EmptyLevelsFail :=
  fun _ _ hcl hi => exec_of_frameForbids (frameForbids_of_cl_nil hcl hi)

/-- Settles O24: the two forms of call stack are those on which `CallPop` fails. -/
theorem malformedReturnKeepsPops : Obligations.MalformedReturnKeepsPops :=
  fun _ _ hcl hne hform => execRet_of_callPop_none hcl hne (callPop_eq_none_iff.2 hform)

/-- Settles O26: the causes of F2 and F4, and that no effect of an instruction is F3. -/
theorem otherFailuresExactly : Obligations.OtherFailuresExactly := by
  refine fun i s t h => ⟨exec_frameViolation_iff h, exec_malformedAddress_iff h, fun hresult => ?_⟩
  rcases (exec_execEffect h).result_cases with hr | hr | hr | ⟨-, hr⟩ | ⟨-, hr⟩
  all_goals simp [hr] at hresult

/-- Settles O27: by the way the execute ends. -/
theorem strictPolicy : Obligations.StrictPolicy :=
  fun _ _ _ => exec_strictPolicy

/-- Settles O31: by the policy for a cycle, from a `status` that is `ok`. -/
theorem errorIsExplained : Obligations.ErrorIsExplained := by
  intro s t hok h
  rcases cycle_strictPolicy h with ⟨hresult, hstatus⟩ | ⟨⟨k, hresult⟩, hstatus⟩ | ⟨hresult, hstatus⟩
  · simp [hresult, hstatus]
  · cases hstrict : s.strict <;> simp [hresult, hstatus, hstrict, hok]
  · rcases hresult with hresult | hresult <;> simp [hresult, hstatus, hok]

/-- Settles O36: in any state with the two stacks that CALL left, RET finds its boundary matching and pops the return
address, which is in the round-trip domain. -/
theorem callThenReturn : Obligations.CallThenReturn := by
  intro s t u target h hdomain hcs hcl
  have hpop := callPop_callPush_iff (below := s.cs).2 (roundTrips_iff.1 hdomain)
  rcases execCall_cases target s with ⟨-, -, -, hnext⟩ | ⟨-, href⟩ | ⟨-, -, href⟩ | ⟨-, -, -, href⟩
  · cases hnext.symm.trans h
    exact execRet_of_callPop (by rw [hcl, hcs]) (by rw [hcs, hpop])
  all_goals cases href.symm.trans h

/-- Settles O37: POP and CALL push above the boundary, PUSH pops above it, and no other effect but those of RET writes
the two stacks. -/
theorem frameBelowBoundaryKept : Obligations.FrameBelowBoundaryKept := by
  intro i s t ls b h hret hcl hb
  cases exec_execEffect h with
  | nothing _ ht | underflowed _ ht | computed _ _ _ ht | branched _ _ _ _ _ ht | jumped _ _ ht | violated _ ht =>
    subst ht
    exact ⟨rfl, hb, [], by simp, fun _ => rfl⟩
  | popped xs v _ _ _ ht =>
    subst ht
    exact ⟨List.take_append_of_le_length hb, by simp; omega, [], by simp, fun _ => rfl⟩
  | pushed ls' b' ys v _ hcl' hcs hb' _ ht =>
    subst ht
    obtain rfl : b = b' := by simpa using congrArg List.getLast? (hcl.symm.trans hcl')
    exact ⟨by rw [hcs, List.take_append_of_le_length hb'], hb', [], by simp, fun _ => rfl⟩
  | called target hi _ _ _ ht =>
    subst ht
    exact ⟨List.take_append_of_le_length hb, by rw [callPush_length]; omega, _, rfl,
      fun hother => absurd hi (hother target)⟩
  | terminated _ hi _ _ _ | returned _ _ _ hi _ _ _ => exact absurd hi hret
  | malformed _ hnone _ _ => exact absurd hnone.1 hret

/-- Settles O38: each effect names the instructions that have it, and what it writes. -/
theorem instructionsReachTheirSpaces : Obligations.InstructionsReachTheirSpaces := by
  intro i s t h
  cases exec_execEffect h with
  | nothing _ ht | underflowed _ ht | violated _ ht => simp [ht]
  | computed _ hi _ ht =>
    subst ht
    refine ⟨fun _ => ?_, by simp, by simp, by simp⟩
    tauto
  | popped _ _ hi _ _ ht | pushed _ _ _ _ hi _ _ _ _ ht | branched _ _ _ hi _ ht | jumped _ hi ht
  | called _ hi _ _ _ ht | terminated _ hi _ _ ht | returned _ _ _ hi _ _ ht => simp [ht, hi]
  | malformed _ hnone _ ht => simp [ht, hnone.1]

end Sys2Proof.Machine
end

section
/-! The increments of INC and DEC against each other (41_arith.md R77). -/

namespace Sys2Proof.Machine

theorem decWord_incWord (v : Word) : decWord (incWord v) = v := by
  apply BitVec.eq_of_toNat_eq
  rw [decWord_toNat, incWord_toNat]
  have := v.isLt
  omega

theorem incWord_decWord (v : Word) : incWord (decWord v) = v := by
  apply BitVec.eq_of_toNat_eq
  rw [incWord_toNat, decWord_toNat]
  have := v.isLt
  omega

/-- Settles O17: the second instruction finds the Word that the first has left on the same stack. -/
theorem incDecUndoEachOther : Obligations.IncDecUndoEachOther := by
  intro s hne
  rcases List.eq_nil_or_concat s.ds with hnil | ⟨xs, v, hds⟩
  · exact absurd hnil hne
  · rw [List.concat_eq_append] at hds
    refine ⟨⟨_, _, execInc_of_ds_concat hds, execDec_of_ds_concat (xs := xs) rfl, ?incDec⟩,
      ⟨_, _, execDec_of_ds_concat hds, execInc_of_ds_concat (xs := xs) rfl, ?decInc⟩⟩
    case incDec => rw [decWord_incWord, ← hds]
    case decInc => rw [incWord_decWord, ← hds]

end Sys2Proof.Machine
end

section
/-! Fetch (30_encoding.md R51) and the cycle it begins (R100): how many Words the decoder takes, that in a canonical
memory it takes no others than those there are, and the cycle by the host's `step` and in a run. -/

namespace Sys2Proof.Machine

/-! ### The Words the decoder takes -/

/-- What the decoder may answer for the Words `ws`: an instruction of no more Words than there are, its opcode Word
among them; the first Word as an unknown opcode; or a cut after all of them. -/
def TakenFrom (ws : List Word) : Decoded → Prop
  | .instr _ k => 1 ≤ k ∧ k ≤ ws.length
  | .unknown op => ws.head? = some op
  | .cut k => k = ws.length

variable {cfg : Config} {op : Word} {ops : List Word}

theorem takenFrom_formatN (i : Instr) : TakenFrom (op :: ops) (.instr i 1) := by simp [TakenFrom]

theorem takenFrom_decodeValue (mk : Word → Instr) : TakenFrom (op :: ops) (decodeValue mk ops) := by
  cases ops <;> simp [TakenFrom, decodeValue]

theorem takenFrom_decodeTarget (mk : Nat → Instr) : TakenFrom (op :: ops) (decodeTarget cfg mk ops) := by
  cases hfield : streamDecode cfg ops with
  | none => simp [TakenFrom, decodeTarget, hfield, Nat.add_comm]
  | some field =>
    have hle := streamDecode_len_le hfield
    rw [decodeTarget_of_streamDecode mk hfield, TakenFrom, List.length_cons]
    omega

theorem takenFrom_decodeValueTarget (mk : Word → Nat → Instr) :
    TakenFrom (op :: ops) (decodeValueTarget cfg mk ops) := by
  cases ops with
  | nil => simp [TakenFrom]
  | cons v ops =>
    cases hfield : streamDecode cfg ops with
    | none =>
      rw [decodeValueTarget_of_streamDecode_none mk v hfield, TakenFrom, List.length_cons, List.length_cons]
      omega
    | some field =>
      have hle := streamDecode_len_le hfield
      rw [decodeValueTarget_of_streamDecode mk v hfield, TakenFrom, List.length_cons, List.length_cons]
      omega

/-- The decoder takes its Words in order and runs out only at their end (R51, R53, R58). -/
theorem takenFrom_decode (cfg : Config) (ws : List Word) : TakenFrom ws (decode cfg ws) := by
  cases ws with
  | nil => rfl
  | cons op ops =>
    rcases decode_cases cfg op ops with ⟨-, hd⟩ | ⟨-, hd⟩ | ⟨-, hd⟩ | ⟨-, hd⟩ | ⟨-, hd⟩ | ⟨-, hd⟩ | ⟨-, hd⟩ |
      ⟨-, hd⟩ | ⟨-, hd⟩ | ⟨-, hd⟩ | ⟨-, hd⟩ | ⟨-, hd⟩ | ⟨-, hd⟩ | ⟨-, -, hd⟩ | ⟨-, hd⟩
    on_goal 15 => simp [hd, TakenFrom]
    all_goals
      simp only [hd, takenFrom_formatN, takenFrom_decodeValue, takenFrom_decodeTarget, takenFrom_decodeValueTarget]

/-! ### Fetch in a canonical memory -/

theorem Memory.words_length (m : List Host.Cell) : (Memory.words m).length = m.length := by simp [Memory.words]

/-- A canonical memory reads as its Words, and as nothing beyond them (R38, R39). -/
theorem Memory.read_of_wf {m : List Host.Cell} (h : Memory.wf m = true) (a : Nat) :
    Memory.read m a = (Memory.words m)[a]? := by
  conv_lhs => rw [Memory.eq_ofWords h, Memory.read_ofWords]

theorem Memory.wordsFrom_of_wf {m : List Host.Cell} (h : Memory.wf m = true) (a : Nat) :
    Memory.wordsFrom m a = (Memory.words m).drop a := by
  conv_lhs => rw [Memory.eq_ofWords h, Memory.wordsFrom_ofWords]

variable {s t : State} {k : Nat}

theorem read_isSome_iff (hwf : Memory.wf s.mem = true) (a : Nat) :
    (Memory.read s.mem a).isSome = true ↔ a < s.N := by
  simp [Memory.read_of_wf hwf, Memory.words_length, State.N]

theorem takenFrom_fetch (hwf : Memory.wf s.mem = true) : TakenFrom ((Memory.words s.mem).drop s.ip) (fetch s) := by
  rw [fetch, Memory.wordsFrom_of_wf hwf]
  exact takenFrom_decode _ _

/-- An instruction fetched lies below `N` (R39). -/
theorem fetch_instr_within {i : Instr} (hwf : Memory.wf s.mem = true) (h : fetch s = .instr i k) :
    1 ≤ k ∧ s.ip + k ≤ s.N := by
  have htaken := takenFrom_fetch hwf
  rw [h, TakenFrom, List.length_drop, Memory.words_length] at htaken
  rw [State.N]
  omega

/-- An unknown opcode is the Word at `ip` (R53). -/
theorem fetch_unknown_read (hwf : Memory.wf s.mem = true) (h : fetch s = .unknown op) :
    Memory.read s.mem s.ip = some op := by
  have htaken := takenFrom_fetch hwf
  rw [h, TakenFrom, List.head?_drop] at htaken
  rw [Memory.read_of_wf hwf, htaken]

/-- A fetch cut short has read every Word from `ip` on (R58). -/
theorem fetch_cut_rest (hwf : Memory.wf s.mem = true) (h : fetch s = .cut k) : k = s.N - s.ip := by
  have htaken := takenFrom_fetch hwf
  rwa [h, TakenFrom, List.length_drop, Memory.words_length] at htaken

/-- With `ip` at `N` or beyond there is no Word to fetch (R39). -/
theorem fetch_of_end_le (hwf : Memory.wf s.mem = true) (h : s.N ≤ s.ip) : fetch s = .cut 0 := by
  have hnil : (Memory.words s.mem).drop s.ip = [] := List.drop_eq_nil_of_le (by rwa [Memory.words_length])
  rw [fetch, Memory.wordsFrom_of_wf hwf, hnil]
  rfl

/-! ### The cycle, by what fetch finds -/

/-- The fetch fault (R121, D8). -/
theorem cycle_of_fetch_cut (hfetch : fetch s = .cut k) (hfits : ipFits s.cfg s.ip k = true) :
    cycle s = .next { s with ip := s.ip + k, status := .error, result := some .faulted } := by
  simp [cycle, hfetch, hfits, State.fetchFault]

/-- The invalid opcode (R85, D7). -/
theorem cycle_of_fetch_unknown (hfetch : fetch s = .unknown op) (hfits : ipFits s.cfg s.ip 1 = true) :
    cycle s = .next { s with
      ip := s.ip + 1
      status := if s.strict then .error else s.status, result := some (.failed .invalidOpcode) } := by
  simp [cycle, hfetch, hfits, execInvalid, State.fail]

/-- An increment of `ip` to `2^AW` is refused whatever was fetched (U3). -/
theorem cycle_of_too_wide
    (hfetch : fetch s = .cut k ∨ (∃ i, fetch s = .instr i k) ∨ (k = 1 ∧ ∃ op, fetch s = .unknown op))
    (hwide : ipFits s.cfg s.ip k = false) : cycle s = .refused .addressWidth := by
  rcases hfetch with hcut | ⟨i, hinstr⟩ | ⟨rfl, op, hunknown⟩
  · simp [cycle, hcut, hwide]
  · simp [cycle, hinstr, hwide]
  · simp [cycle, hunknown, hwide]

/-! ### The step that performs a cycle -/

/-- By the host's `step` on an idle machine (R107, D19). -/
theorem step_of_stepCommand {strict : Bool} {rest : List Command} (hidle : s.run = none)
    (hcommands : s.commands = .step strict :: rest) :
    step s = cycle { s with commands := rest, strict := strict } := by
  rw [step_issues hidle hcommands, issue, stepCommand]

variable {r : RunCtl}

/-- In a run: the cycle is counted, or the run ends with it (R106). -/
theorem step_of_run_cycle (hrun : s.run = some r) (hok : s.status = .ok) (hnoHalt : NoHaltNow s)
    (hleft : r.spent = false) (hcycle : cycle { s with halts := s.halts.tail } = .next t) :
    step s = .next { t with
      run := if t.result = some .terminated then none else some { r with steps := r.steps + 1 } } := by
  rw [step_runs_cycle hrun hok hnoHalt hleft, runCycle, hcycle]
  rfl

/-- In a run: a cycle that does not terminate it is counted (R106). -/
theorem step_of_run_cycle_counted (hrun : s.run = some r) (hok : s.status = .ok) (hnoHalt : NoHaltNow s)
    (hleft : r.spent = false) (hcycle : cycle { s with halts := s.halts.tail } = .next t)
    (hgoes : t.result ≠ some .terminated) :
    step s = .next { t with run := some { r with steps := r.steps + 1 } } := by
  rw [step_of_run_cycle hrun hok hnoHalt hleft hcycle, if_neg hgoes]

/-- In a run: a cycle that is refused is so as a step. -/
theorem step_of_run_cycle_refused {x : Refusal} (hrun : s.run = some r) (hok : s.status = .ok)
    (hnoHalt : NoHaltNow s) (hleft : r.spent = false)
    (hcycle : cycle { s with halts := s.halts.tail } = .refused x) : step s = .refused x := by
  rw [step_runs_cycle hrun hok hnoHalt hleft, runCycle, hcycle]

end Sys2Proof.Machine

namespace Sys2Proof.Machine

/-! ### The statements -/

/-- Settles O29: a fetch cut short has read all Words from `ip` on; the cycle, whoever began it, is the fetch fault. -/
theorem fetchFaultEndsCycle : Obligations.FetchFaultEndsCycle := by
  intro s k hwf hfetch hfits
  have hrest := fetch_cut_rest hwf hfetch
  refine ⟨?beyond, fun j hj => (read_isSome_iff hwf _).2 (by omega), cycle_of_fetch_cut hfetch hfits,
    fun strict rest hidle hcommands => ?byStep, fun r hrun hok hnoHalt hleft => ?inRun⟩
  case beyond =>
    rw [← Option.not_isSome_iff_eq_none, read_isSome_iff hwf]
    omega
  case byStep =>
    rw [step_of_stepCommand hidle hcommands]
    exact cycle_of_fetch_cut (s := { s with commands := rest, strict := strict }) hfetch hfits
  case inRun =>
    exact step_of_run_cycle_counted hrun hok hnoHalt hleft
      (cycle_of_fetch_cut (s := { s with halts := s.halts.tail }) hfetch hfits) (by simp)

/-- Settles O30: the Words taken are those from `ip` on, and a read beyond them is the fetch fault. -/
theorem fetchReadsOnlyExisting : Obligations.FetchReadsOnlyExisting := by
  refine ⟨fun s i k => fetch_instr_within, fun s op hwf hfetch => ?unknown, fun s a hwf => read_isSome_iff hwf a,
    fun s k hwf hfetch hfits => ?cut, fun s hwf hend => ?beyond⟩
  case unknown =>
    have hread := fetch_unknown_read hwf hfetch
    exact ⟨(read_isSome_iff hwf _).1 (by simp [hread]), hread⟩
  case cut =>
    have hrest := fetch_cut_rest hwf hfetch
    exact ⟨by omega, _, cycle_of_fetch_cut hfetch hfits, rfl, rfl⟩
  case beyond => exact cycle_of_fetch_cut (fetch_of_end_le hwf hend) rfl

/-- Settles O28: the cycle, whoever began it, fails as F3 with `ip` past the one Word. -/
theorem invalidOpcodeFails : Obligations.InvalidOpcodeFails := by
  intro s op hfetch hfits
  refine ⟨cycle_of_fetch_unknown hfetch hfits, fun strict rest hidle hcommands => ?byStep,
    fun r hrun hok hnoHalt hleft => ?inRun⟩
  case byStep =>
    rw [step_of_stepCommand hidle hcommands]
    exact cycle_of_fetch_unknown (s := { s with commands := rest, strict := strict }) hfetch hfits
  case inRun =>
    rw [← hok]
    exact step_of_run_cycle_counted hrun hok hnoHalt hleft
      (cycle_of_fetch_unknown (s := { s with halts := s.halts.tail }) hfetch hfits) (by simp)

/-- Settles O8: NOP completes at once, so its cycle moves `ip` and is counted. -/
theorem nopHasNoEffect : Obligations.NopHasNoEffect := by
  refine ⟨decode_opcode_nop, fun s => rfl, fun s r hrun hok hnoHalt hleft hfetch hfits => ?_⟩
  exact step_of_run_cycle_counted hrun hok hnoHalt hleft
    (cycle_of_fetch_instr (s := { s with halts := s.halts.tail }) hfetch hfits) (by simp)

/-- Settles O40: the step is the cycle, and the cycle is the execute of what was fetched. -/
theorem stepCommandRunsDecoded : Obligations.StepCommandRunsDecoded := by
  intro s strict rest i len hidle hcommands hfetch hfits
  rw [step_of_stepCommand hidle hcommands]
  exact cycle_of_fetch_instr (s := { s with commands := rest, strict := strict }) hfetch hfits

/-- Settles O41: likewise in a run, whose loop then counts the cycle or ends. -/
theorem runStepRunsDecoded : Obligations.RunStepRunsDecoded := by
  intro s r i len hrun hok hnoHalt hleft hfetch hfits
  have hcycle := cycle_of_fetch_instr (s := { s with halts := s.halts.tail }) hfetch hfits
  exact ⟨fun t ht => step_of_run_cycle hrun hok hnoHalt hleft (hcycle.trans ht),
    fun x hx => step_of_run_cycle_refused hrun hok hnoHalt hleft (hcycle.trans hx)⟩

end Sys2Proof.Machine
end

section
/-! The host operations (44_host_commands.md), what every step holds of the host's inputs and the parameters, and where
a step is refused (93_implementation_defined.md U3, U7). -/

namespace Sys2Proof.Machine

variable {s t : State} {r : RunCtl}

/-! ### `setdata`, `run` and `reset` where they are accepted -/

theorem setdata_of_withinCap {words : List Word} (h : withinCap s.cfg.dsCap words.length = true) :
    setdata words s = .next { s with ds := words } := by
  rw [setdata, if_pos h]

/-- The sentinel boundary 0 is pushed and the count starts at 0 (R105). -/
theorem runEntry_of_withinCap (strict : Bool) (maxsteps : Option Nat)
    (h : withinCap s.cfg.clCap (s.cl.length + 1) = true) :
    runEntry strict maxsteps s = .next { s with
      cl := s.cl ++ [0], strict := strict, run := some { maxsteps := maxsteps, steps := 0 } } := by
  rw [runEntry, if_pos h, Stack.push]

/-- Under the other reading of C9 the `reset` command sets `status` to `ok` (R104, D17). -/
theorem resetCommand_of_clears_status (h : s.cfg.resetClearsStatus = true) :
    resetCommand s = .next { s with ds := [], cs := [], cl := [], ip := 0, status := .ok } := by
  simp [resetCommand, h]

/-! ### What a step of a run holds -/

theorem InstrFrame.strict_eq (h : InstrFrame s t) : t.strict = s.strict :=
  (congrArg State.strict h).trans rfl

theorem InstrFrame.commands_eq (h : InstrFrame s t) : t.commands = s.commands :=
  (congrArg State.commands h).trans rfl

theorem InstrFrame.halts_eq (h : InstrFrame s t) : t.halts = s.halts :=
  (congrArg State.halts h).trans rfl

/-- A step of a run holds the strict flag and the host's other operations, and takes one entry of its halts (D20,
D23). -/
theorem step_run_inputs (hrun : s.run = some r) (h : step s = .next t) :
    t.strict = s.strict ∧ t.commands = s.commands ∧ t.halts = s.halts.tail := by
  rcases step_run_cases hrun with ⟨-, hend⟩ | ⟨-, -, hspent⟩ | ⟨-, -, hcycle⟩
  · cases hend.symm.trans h
    exact ⟨takeHalt_strict s, takeHalt_commands s, takeHalt_halts s⟩
  · cases hspent.symm.trans h
    exact ⟨takeHalt_strict s, takeHalt_commands s, takeHalt_halts s⟩
  · obtain ⟨u, hu, rfl⟩ := runCycle_next (hcycle.symm.trans h)
    have hframe := cycle_instrFrame hu
    exact ⟨hframe.strict_eq.trans (takeHalt_strict s), hframe.commands_eq.trans (takeHalt_commands s),
      hframe.halts_eq.trans (takeHalt_halts s)⟩

/-! ### No step writes a parameter -/

theorem issue_cfg {c : Command} (h : issue c s = .next t) : t.cfg = s.cfg := by
  cases c with
  | loadprogram bytes => rw [loadprogram_next h]
  | setdata words =>
    simp only [issue, setdata] at h
    split at h <;> cases h
    rfl
  | reset | halt =>
    cases h
    rfl
  | run strict maxsteps =>
    simp only [issue, runEntry] at h
    split at h <;> cases h
    rfl
  | step strict => exact (cycle_instrFrame h).cfg_eq

/-- The parameters are constant for one machine (R5). -/
theorem step_cfg (h : step s = .next t) : t.cfg = s.cfg := by
  cases hrun : s.run with
  | some r => exact step_run_cfg hrun h
  | none =>
    rcases step_idle hrun with ⟨-, hstay⟩ | ⟨c, rest, -, hissue⟩
    · cases hstay.symm.trans h
      rfl
    · exact issue_cfg (s := { s with commands := rest }) (hissue.symm.trans h)

/-! ### A terminal status stays -/

theorem cycle_keeps_terminal (hs : s.status ≠ .ok) (h : cycle s = .next t) : t.status ≠ .ok := by
  rcases cycle_status_kept_or_error h with hkept | herror
  · rwa [hkept]
  · simp [herror]

/-- A host operation leaves a terminal `status`, but for a `reset` under `RESET_CLEARS_STATUS` (R125). -/
theorem issue_keeps_terminal {c : Command} (hkeeps : s.cfg.resetClearsStatus = false) (hs : s.status ≠ .ok)
    (h : issue c s = .next t) : t.status ≠ .ok := by
  cases c with
  | loadprogram bytes => rwa [loadprogram_next h]
  | setdata words =>
    simp only [issue, setdata] at h
    split at h <;> cases h
    exact hs
  | reset =>
    cases (resetCommand_of_keeps_status hkeeps).symm.trans h
    exact hs
  | run strict maxsteps =>
    simp only [issue, runEntry] at h
    split at h <;> cases h
    exact hs
  | step strict => exact cycle_keeps_terminal (s := { s with strict := strict }) hs h
  | halt =>
    cases h
    simp

/-- A run whose `status` is terminal performs no cycle at all (R106). -/
theorem step_run_keeps_terminal (hrun : s.run = some r) (hs : s.status ≠ .ok) (h : step s = .next t) :
    t.status ≠ .ok := by
  have htake : (takeHalt s).status ≠ .ok := fun hok => hs (ok_and_noHalt_of_takeHalt_ok hok).1
  cases (step_of_takeHalt_not_ok hrun htake).symm.trans h
  exact htake

/-! ### With the unbounded sizes every step completes -/

theorem issue_completes (c : Command) (h : Unbounded s.cfg) : ∃ t, issue c s = .next t := by
  have ⟨_, hmemCap, hdsCap, _, hclCap⟩ := h
  cases c with
  | loadprogram bytes => exact ⟨_, loadprogram_of_withinCap (by rw [hmemCap, withinCap_none])⟩
  | setdata words => exact ⟨_, setdata_of_withinCap (by rw [hdsCap, withinCap_none])⟩
  | reset | halt => exact ⟨_, rfl⟩
  | run strict maxsteps => exact ⟨_, runEntry_of_withinCap strict maxsteps (by rw [hclCap, withinCap_none])⟩
  | step strict => exact cycle_completes (s := { s with strict := strict }) h

/-- Where no size is finite no step is refused (U3, U7). -/
theorem step_completes (h : Unbounded s.cfg) : ∃ t, step s = .next t := by
  cases hrun : s.run with
  | some r => exact step_run_completes hrun h
  | none =>
    rcases step_idle hrun with ⟨-, hstay⟩ | ⟨c, rest, -, hissue⟩
    · exact ⟨s, hstay⟩
    · rw [hissue]
      exact issue_completes (s := { s with commands := rest }) c h

/-! ### Where an instruction is refused -/

theorem pushData_of_full (v : Word) (h : withinCap s.cfg.dsCap (s.ds.length + 1) = false) :
    pushData v s = .refused .dataStackCapacity := by
  simp [pushData, h]

theorem execDup_of_full (h : withinCap s.cfg.dsCap (s.ds.length + 1) = false) (hne : s.ds ≠ []) :
    execDup s = .refused .dataStackCapacity := by
  rcases List.eq_nil_or_concat s.ds with hnil | ⟨xs, v, hds⟩
  · exact absurd hnil hne
  · rw [List.concat_eq_append] at hds
    rw [execDup_of_ds_concat hds, pushData_of_full v h]

theorem execPush_of_full {ls : List Nat} {b : Nat} (h : withinCap s.cfg.dsCap (s.ds.length + 1) = false)
    (hcl : s.cl = ls ++ [b]) (hb : b < s.cs.length) : execPush s = .refused .dataStackCapacity := by
  rcases execPush_cases s with ⟨hnil | ⟨ls', b', hcl', hb'⟩, -⟩ | ⟨ls', b', ys, v, -, -, -, ⟨hroom, -⟩ | ⟨-, href⟩⟩
  · simp [hcl] at hnil
  · obtain rfl : b = b' := by simpa using congrArg List.getLast? (hcl.symm.trans hcl')
    omega
  · exact absurd hroom (Bool.eq_false_iff.mp h)
  · exact href

theorem execPop_of_full (h : withinCap s.cfg.csCap (s.cs.length + 1) = false) (hne : s.ds ≠ []) :
    execPop s = .refused .callStackCapacity := by
  rcases withTop_cases s _ with ⟨hnil, -⟩ | ⟨xs, v, -, hpop⟩
  · exact absurd hnil hne
  · exact hpop.trans (if_neg (Bool.eq_false_iff.mp h))

theorem execCall_of_csFull (target : Nat) (h : withinCap s.cfg.csCap (callPush s.ip s.cs).length = false) :
    execCall target s = .refused .callStackCapacity := by
  simp [execCall, h]

theorem execCall_of_clFull (target : Nat) (hcs : withinCap s.cfg.csCap (callPush s.ip s.cs).length = true)
    (h : withinCap s.cfg.clCap (s.cl.length + 1) = false) : execCall target s = .refused .callLevelCapacity := by
  simp [execCall, hcs, h]

theorem execCall_of_too_wide (target : Nat) (hcs : withinCap s.cfg.csCap (callPush s.ip s.cs).length = true)
    (hcl : withinCap s.cfg.clCap (s.cl.length + 1) = true)
    (h : addressFits s.cfg (callPush s.ip s.cs).length = false) :
    execCall target s = .refused .callLevelWidth := by
  simp [execCall, hcs, hcl, h]

/-! ### Where a host operation is refused -/

theorem loadprogram_of_too_long {bytes : List Word} (h : withinCap s.cfg.memCap bytes.length = false) :
    loadprogram bytes s = .refused .memoryCapacity :=
  if_neg (Bool.eq_false_iff.mp h)

theorem setdata_of_too_long {words : List Word} (h : withinCap s.cfg.dsCap words.length = false) :
    setdata words s = .refused .dataStackCapacity :=
  if_neg (Bool.eq_false_iff.mp h)

theorem runEntry_of_full (strict : Bool) (maxsteps : Option Nat)
    (h : withinCap s.cfg.clCap (s.cl.length + 1) = false) :
    runEntry strict maxsteps s = .refused .callLevelCapacity :=
  if_neg (Bool.eq_false_iff.mp h)

end Sys2Proof.Machine

namespace Sys2Proof.Machine

/-! ### The statements -/

/-- Settles O50: each step of a run holds the inputs, the parameters and the memory. -/
theorem runHoldsInputs : Obligations.RunHoldsInputs := by
  intro s t r hrun h
  obtain ⟨hstrict, hcommands, hhalts⟩ := step_run_inputs hrun h
  exact ⟨hstrict, step_run_cfg hrun h, hcommands, hhalts, fun a => by rw [step_mem_of_run hrun h]⟩

/-- Settles O51: a run ends on a terminal status, and no host operation clears it. -/
theorem terminalStatusNeverOkAgain : Obligations.TerminalStatusNeverOkAgain := by
  intro s t hkeeps hs h
  refine ⟨?status, by rw [step_cfg h, hkeeps]⟩
  cases hrun : s.run with
  | some r => exact step_run_keeps_terminal hrun hs h
  | none =>
    rcases step_idle hrun with ⟨-, hstay⟩ | ⟨c, rest, -, hissue⟩
    · cases hstay.symm.trans h
      exact hs
    · exact issue_keeps_terminal (s := { s with commands := rest }) hkeeps hs (hissue.symm.trans h)

/-- Settles O58: no step is refused, and none writes a parameter. -/
theorem everyStepCompletes : Obligations.EveryStepCompletes := by
  intro s h
  obtain ⟨t, ht⟩ := step_completes h
  exact ⟨t, ht, step_cfg ht⟩

/-- Settles O43: the idle machine performs the `setdata` it accepts. -/
theorem setdataReplacesDataStack : Obligations.SetdataReplacesDataStack := by
  intro s words rest hidle hcommands hfits
  rw [step_issues hidle hcommands]
  exact setdata_of_withinCap (s := { s with commands := rest }) hfits

/-- Settles O45: the idle machine performs the entry actions of the `run` it accepts. -/
theorem runPushesSentinel : Obligations.RunPushesSentinel := by
  intro s strict maxsteps rest hidle hcommands hroom
  rw [step_issues hidle hcommands]
  exact runEntry_of_withinCap (s := { s with commands := rest }) strict maxsteps hroom

/-- Settles O48: with no halt pending the boundary finds the `status` that there was. -/
theorem terminalStatusEndsRun : Obligations.TerminalStatusEndsRun := by
  intro s r hrun hs hnoHalt
  have htake := takeHalt_of_noHalt hnoHalt
  rw [step_of_takeHalt_not_ok hrun (by rwa [htake]), htake]

/-- Settles O59: each operation that pushes, and each increment of `ip`, by its own lemma; the cycle that is refused is
so by the host's `step` and in a run. -/
theorem exceededSizesRefused : Obligations.ExceededSizesRefused := by
  refine ⟨fun s hfull => ⟨fun v => pushData_of_full v hfull, execDup_of_full hfull,
      fun ls b hcl hb => execPush_of_full hfull hcl hb⟩,
    fun s hfull hne => execPop_of_full hfull hne,
    fun s target => ⟨execCall_of_csFull target,
      fun hcs => ⟨execCall_of_clFull target hcs, execCall_of_too_wide target hcs⟩⟩,
    fun s rest hidle => ⟨fun bytes hcommands hlong => ?loadprogram, fun words hcommands hlong => ?setdata,
      fun strict maxsteps hcommands hfull => ?run⟩,
    fun s k hfetch hwide => ⟨cycle_of_too_wide hfetch hwide, fun strict rest hidle hcommands => ?byStep,
      fun r hrun hok hnoHalt hleft => ?inRun⟩⟩
  case loadprogram =>
    rw [step_loadprogram hidle hcommands]
    exact loadprogram_of_too_long (s := { s with commands := rest }) hlong
  case setdata =>
    rw [step_issues hidle hcommands]
    exact setdata_of_too_long (s := { s with commands := rest }) hlong
  case run =>
    rw [step_issues hidle hcommands]
    exact runEntry_of_full (s := { s with commands := rest }) strict maxsteps hfull
  case byStep =>
    rw [step_of_stepCommand hidle hcommands]
    exact cycle_of_too_wide (s := { s with commands := rest, strict := strict }) hfetch hwide
  case inRun =>
    exact step_of_run_cycle_refused hrun hok hnoHalt hleft
      (cycle_of_too_wide (s := { s with halts := s.halts.tail }) hfetch hwide)

/-- Settles O60: the two places of the decoder that test a parameter, and the one of the `reset` command. -/
theorem parametersSelectReadings : Obligations.ParametersSelectReadings := by
  refine ⟨fun cfg ops hisNop => decode_zero_of_isNop hisNop ops, fun cfg ops hnot => decode_zero_of_not_isNop hnot ops,
    fun cfg ops hends => streamDecode_terminator hends ops, fun s rest hidle hcommands hclears => ?reset⟩
  case reset =>
    rw [step_issues hidle hcommands]
    exact resetCommand_of_clears_status (s := { s with commands := rest }) hclears

end Sys2Proof.Machine
end
